-- ==== Sys2Proof/Word.lean ====
section
/-! DEFINITION. The two widths of the CORE (spec/00_scope.md R6): a byte is 8 bits, a word is 16 bits, and every
quantity is unsigned. -/

namespace Sys2Proof

/-- A `u8` (R6). -/
abbrev Byte := BitVec 8

/-- A `u16` (R6): every register, literal and address is one (R5, `XLEN`). -/
abbrev Word := BitVec 16

end Sys2Proof
end

