-- ==== Sys2Proof/Machine/Flags.lean ====
section
/-! DEFINITION. The CORE has no status flags, no condition codes and no carry (spec/10_state.md R18). What stands here is
the one condition an instruction tests and the one sum an instruction computes. -/

namespace Sys2Proof.Machine

/-- The condition of JMP_NOT_EQ: the literal and the whole 16-bit `acc` differ (spec/43_jump.md R87). -/
def jumpTaken (val acc : Word) : Bool := val != acc

/-- The sum of ADD_REG_REG, modulo 65536; the carry is recorded nowhere (spec/42_add.md R85, R86). -/
def sum16 (u v : Word) : Word := u + v

end Sys2Proof.Machine
end

