-- ==== Sys2Proof/Config.lean ====
section
/-! DEFINITION. The implementation parameters of the CORE (spec/00_scope.md R5). They are fixed for the life of a
machine (spec/10_state.md R23); the model takes them as arguments, carried by `State.cfg` (log 1), so a statement about
every state holds for every value of them. -/

namespace Sys2Proof

/-- `OPC` (spec/30_encoding.md R56): the opcode byte of each of the twelve mnemonics. Any injective map is allowed
(R62), see `Opc.injective`; the default map is `Machine.defaultOpc`. -/
structure Opc where
  movLitReg : Byte
  movRegReg : Byte
  movRegMem : Byte
  movMemReg : Byte
  addRegReg : Byte
  jmpNotEq : Byte
  pshLit : Byte
  pshReg : Byte
  pop : Byte
  calLit : Byte
  calReg : Byte
  ret : Byte
  deriving DecidableEq, Repr

/-- The image of `OPC`, in the order of the opcode table (R56). -/
def Opc.bytes (o : Opc) : List Byte :=
  [o.movLitReg, o.movRegReg, o.movRegMem, o.movMemReg, o.addRegReg, o.jmpNotEq,
   o.pshLit, o.pshReg, o.pop, o.calLit, o.calReg, o.ret]

/-- `UNKNOWN_OPCODE_POLICY` (spec/00_scope.md R5, spec/46_undefined_opcode.md R110). The spec fixes `nop`; `fault` is the
alternative it documents and does not take (log 4). -/
inductive UnknownOpcodePolicy where
  /-- The byte is a one-byte no-op (R110). -/
  | nop
  /-- The step raises UnknownOpcode after the opcode fetch (R110, "Alternative, not taken"). -/
  | fault
  deriving DecidableEq, Repr

/-- `FSZ_RELOAD_ADJ` (spec/45_call_return.md R101), an open parameter with two values (log 2). -/
inductive FszReloadAdj where
  /-- The popped size is assigned as it is. -/
  | zero
  /-- The popped size is assigned less 2. -/
  | two
  deriving DecidableEq, Repr

/-- The amount `PopState` subtracts from the popped frame size (R101). -/
def FszReloadAdj.amount : FszReloadAdj → Word
  | .zero => 0
  | .two => 2

/-- The four parameters of R5 that are not fixed numbers. -/
structure Config where
  /-- `MEM_SIZE`, open, in 2..65536 (R5, decision D4). -/
  memSize : Nat
  /-- `OPC`. -/
  opc : Opc
  /-- `UNKNOWN_OPCODE_POLICY`. -/
  unknownOpcode : UnknownOpcodePolicy
  /-- `FSZ_RELOAD_ADJ`. -/
  fszReloadAdj : FszReloadAdj
  deriving DecidableEq, Repr

end Sys2Proof
end

