-- ==== Sys2Proof/Syntax.lean ====
section
/-! DEFINITION. The registers and the instructions, one constructor of `Instr` per row of spec/opcode_table.json. Operands
stand in byte order (spec/30_encoding.md R52). A register operand is the register its selector byte selects: the
reduction modulo 12 belongs to the decoder (R54). -/

namespace Sys2Proof

/-- The twelve registers in the order of their index numbers (spec/10_state.md R11). -/
inductive Reg where
  | ip | acc | r1 | r2 | r3 | r4 | r5 | r6 | r7 | r8 | sp | fp
  deriving DecidableEq, Repr

/-- The instruction set: the twelve mnemonics of spec/30_encoding.md R56 and the fallback row for every other opcode
byte (R58). -/
inductive Instr where
  /-- MOV_LIT_REG (spec/41_move.md R80). -/
  | movLitReg (lit16 : Word) (reg : Reg)
  /-- MOV_REG_REG (R81). -/
  | movRegReg (regFrom regTo : Reg)
  /-- MOV_REG_MEM (R82). -/
  | movRegMem (regFrom : Reg) (addr16 : Word)
  /-- MOV_MEM_REG (R83). -/
  | movMemReg (addr16 : Word) (regTo : Reg)
  /-- ADD_REG_REG (spec/42_add.md R85). -/
  | addRegReg (regA regB : Reg)
  /-- JMP_NOT_EQ (spec/43_jump.md R87). -/
  | jmpNotEq (val16 addr16 : Word)
  /-- PSH_LIT (spec/44_stack.md R92). -/
  | pshLit (lit16 : Word)
  /-- PSH_REG (R93). -/
  | pshReg (reg : Reg)
  /-- POP (R94). -/
  | pop (reg : Reg)
  /-- CAL_LIT (spec/45_call_return.md R102). -/
  | calLit (addr16 : Word)
  /-- CAL_REG (R103). -/
  | calReg (reg : Reg)
  /-- RET (R104). -/
  | ret
  /-- An opcode byte outside the image of `OPC` (spec/46_undefined_opcode.md R110). -/
  | unknownOpcode (byte : Byte)
  deriving DecidableEq, Repr

end Sys2Proof
end

