-- ==== Sys2Proof/Machine/Operands.lean ====
section
/-! DEFINITION. The two operand kinds (spec/30_encoding.md R51): the register selector, reduced modulo 12 (R54), and the
16-bit big-endian operand (R55); and the two halves of a word (spec/00_scope.md R6). There is no other operand form. -/

namespace Sys2Proof.Machine

/-- `hi8(w) = w[15:8]` (spec/00_scope.md R6). -/
def hi8 (w : Word) : Byte := w.extractLsb' 8 8

/-- `lo8(w) = w[7:0]` (R6). -/
def lo8 (w : Word) : Byte := w.extractLsb' 0 8

/-- `h || l`: the word whose most significant byte is `h` (R6; big-endian assembly of spec/30_encoding.md R55 and
spec/20_memory.md R34). -/
def wordOf (h l : Byte) : Word := h ++ l

/-- The index number of a register (spec/10_state.md R11; DESIGN CHOICE of the spec, D3, log 10). -/
def regIndex : Reg → Nat
  | .ip => 0
  | .acc => 1
  | .r1 => 2
  | .r2 => 3
  | .r3 => 4
  | .r4 => 5
  | .r5 => 6
  | .r6 => 7
  | .r7 => 8
  | .r8 => 9
  | .sp => 10
  | .fp => 11

/-- The register at an index number 0..11 (R11). The callers reduce modulo 12, so the last line is index 11. -/
def regOfIndex : Nat → Reg
  | 0 => .ip
  | 1 => .acc
  | 2 => .r1
  | 3 => .r2
  | 4 => .r3
  | 5 => .r4
  | 6 => .r5
  | 7 => .r6
  | 8 => .r7
  | 9 => .r8
  | 10 => .sp
  | _ => .fp

/-- The register a selector byte selects: index `b mod 12`, for every byte (spec/30_encoding.md R54). -/
def regOfSelector (b : Byte) : Reg := regOfIndex (b.toNat % 12)

/-- The canonical selector byte of a register, 0x00..0x0B (spec/30_encoding.md R60). -/
def selectorOf (r : Reg) : Byte := BitVec.ofNat 8 (regIndex r)

end Sys2Proof.Machine
end

