-- ==== Sys2Proof/Machine/Params.lean ====
section
/-! DEFINITION. The parameter values of the machine `State.reset` describes. They are the model's choices (logs 1 to 4):
every statement about an arbitrary state holds for every other value too. -/

namespace Sys2Proof.Machine

/-- The default opcode map (spec/30_encoding.md R56). PRESUMED: the values are the spec's, taken by it from general
knowledge (spec/93_implementation_defined.md G1), not the source's (log 3). -/
def defaultOpc : Opc where
  movLitReg := 0x10
  movRegReg := 0x11
  movRegMem := 0x12
  movMemReg := 0x13
  addRegReg := 0x14
  jmpNotEq := 0x15
  pshLit := 0x17
  pshReg := 0x18
  pop := 0x1A
  calLit := 0x5E
  calReg := 0x5F
  ret := 0x60

/-- The parameters of the machine after reset. DESIGN CHOICE: `MEM_SIZE` is 65536 (log 1) and `FSZ_RELOAD_ADJ` is 0
(log 2), both open in the spec; the policy for unknown opcodes is the one the spec fixes (log 4). -/
def resetConfig : Config where
  memSize := 65536
  opc := defaultOpc
  unknownOpcode := .nop
  fszReloadAdj := .zero

end Sys2Proof.Machine
end

