-- ==== Sys2Proof/WellFormed.lean ====
section
/-! DEFINITION. The checks on parameters and instructions. A register operand and a 16-bit operand are legal at every
value (spec/30_encoding.md R58), so the one check on an instruction is that an unknown opcode really is unknown. -/

namespace Sys2Proof

/-- No two mnemonics share an opcode byte (spec/30_encoding.md R62). -/
def Opc.injective (o : Opc) : Bool := decide o.bytes.Nodup

/-- The byte is the opcode of one of the twelve mnemonics (R58). -/
def Opc.knows (o : Opc) (b : Byte) : Bool := decide (b ∈ o.bytes)

/-- The domain of the parameters: `MEM_SIZE` in 2..65536 and `OPC` injective (spec/00_scope.md R5). -/
def Config.wf (c : Config) : Bool :=
  decide (2 ≤ c.memSize) && decide (c.memSize ≤ 65536) && c.opc.injective

/-- An instruction of a machine with the opcode map `o`: an unknown opcode is a byte outside the map (R58). -/
def Instr.wf (o : Opc) : Instr → Bool
  | .movLitReg _ _ => true
  | .movRegReg _ _ => true
  | .movRegMem _ _ => true
  | .movMemReg _ _ => true
  | .addRegReg _ _ => true
  | .jmpNotEq _ _ => true
  | .pshLit _ => true
  | .pshReg _ => true
  | .pop _ => true
  | .calLit _ => true
  | .calReg _ => true
  | .ret => true
  | .unknownOpcode b => !o.knows b

end Sys2Proof
end

