-- ==== Sys2Proof/Decode.lean ====
section
/-! DEFINITION. The decoder and the encoder (spec/30_encoding.md). `layoutOf` is the opcode table of R56 and R57: the
opcode byte alone decides the layout (R50, R59). Both the byte decoder here and the engine's fetch
(Machine/Fetch.lean) read their operands through it. -/

namespace Sys2Proof

open Machine

/-- The seven layouts of R53, each with the instruction it builds from its operands in byte order (R52). -/
inductive Layout where
  /-- F0: the opcode byte alone. -/
  | f0 (i : Instr)
  /-- FR: one selector. -/
  | fr (mk : Reg → Instr)
  /-- FRR: two selectors. -/
  | frr (mk : Reg → Reg → Instr)
  /-- FI: one 16-bit operand. -/
  | fi (mk : Word → Instr)
  /-- FIR: a 16-bit operand, then a selector. -/
  | fir (mk : Word → Reg → Instr)
  /-- FRI: a selector, then a 16-bit operand. -/
  | fri (mk : Reg → Word → Instr)
  /-- FII: two 16-bit operands. -/
  | fii (mk : Word → Word → Instr)

/-- The opcode table (R56, R57); every byte outside the map is an unknown opcode, one byte long (R58). -/
def layoutOf (o : Opc) (b : Byte) : Layout :=
  if b = o.movLitReg then .fir .movLitReg
  else if b = o.movRegReg then .frr .movRegReg
  else if b = o.movRegMem then .fri .movRegMem
  else if b = o.movMemReg then .fir .movMemReg
  else if b = o.addRegReg then .frr .addRegReg
  else if b = o.jmpNotEq then .fii .jmpNotEq
  else if b = o.pshLit then .fi .pshLit
  else if b = o.pshReg then .fr .pshReg
  else if b = o.pop then .fr .pop
  else if b = o.calLit then .fi .calLit
  else if b = o.calReg then .fr .calReg
  else if b = o.ret then .f0 .ret
  else .f0 (.unknownOpcode b)

/-- Why a list of bytes is no instruction. No byte value is rejected (R54, R55, R58): only a list that ends too early is. -/
inductive DecodeError where
  /-- There is no opcode byte. -/
  | noBytes
  /-- The operand bytes of this opcode byte are not all there. -/
  | truncated (opcode : Byte)
  deriving DecidableEq, Repr

/-- Reads one instruction from the front of a list of bytes and returns the bytes after it (R57, R59). -/
def decode (o : Opc) : List Byte → Except DecodeError (Instr × List Byte)
  | [] => .error .noBytes
  | b :: bytes =>
    match layoutOf o b, bytes with
    | .f0 i, rest => .ok (i, rest)
    | .fr mk, a :: rest => .ok (mk (regOfSelector a), rest)
    | .frr mk, a :: c :: rest => .ok (mk (regOfSelector a) (regOfSelector c), rest)
    | .fi mk, h :: l :: rest => .ok (mk (wordOf h l), rest)
    | .fir mk, h :: l :: a :: rest => .ok (mk (wordOf h l) (regOfSelector a), rest)
    | .fri mk, a :: h :: l :: rest => .ok (mk (regOfSelector a) (wordOf h l), rest)
    | .fii mk, h :: l :: h' :: l' :: rest => .ok (mk (wordOf h l) (wordOf h' l'), rest)
    | _, _ => .error (.truncated b)

/-- The opcode byte of an instruction (R56); an unknown opcode is its own byte (R58). -/
def opcodeOf (o : Opc) : Instr → Byte
  | .movLitReg _ _ => o.movLitReg
  | .movRegReg _ _ => o.movRegReg
  | .movRegMem _ _ => o.movRegMem
  | .movMemReg _ _ => o.movMemReg
  | .addRegReg _ _ => o.addRegReg
  | .jmpNotEq _ _ => o.jmpNotEq
  | .pshLit _ => o.pshLit
  | .pshReg _ => o.pshReg
  | .pop _ => o.pop
  | .calLit _ => o.calLit
  | .calReg _ => o.calReg
  | .ret => o.ret
  | .unknownOpcode b => b

/-- The operand bytes of an instruction, in byte order (R57), registers by their canonical selector (R60). -/
def operandBytes : Instr → List Byte
  | .movLitReg lit reg => [hi8 lit, lo8 lit, selectorOf reg]
  | .movRegReg regFrom regTo => [selectorOf regFrom, selectorOf regTo]
  | .movRegMem regFrom addr => [selectorOf regFrom, hi8 addr, lo8 addr]
  | .movMemReg addr regTo => [hi8 addr, lo8 addr, selectorOf regTo]
  | .addRegReg regA regB => [selectorOf regA, selectorOf regB]
  | .jmpNotEq val addr => [hi8 val, lo8 val, hi8 addr, lo8 addr]
  | .pshLit lit => [hi8 lit, lo8 lit]
  | .pshReg reg => [selectorOf reg]
  | .pop reg => [selectorOf reg]
  | .calLit addr => [hi8 addr, lo8 addr]
  | .calReg reg => [selectorOf reg]
  | .ret => []
  | .unknownOpcode _ => []

/-- The bytes of an instruction, the first at the lowest address (R57). -/
def encode (o : Opc) (i : Instr) : List Byte := opcodeOf o i :: operandBytes i

/-- The length of an instruction in bytes, 1 to 5 (R50, R53). -/
def instrLength : Instr → Nat
  | .movLitReg _ _ => 4
  | .movRegReg _ _ => 3
  | .movRegMem _ _ => 4
  | .movMemReg _ _ => 4
  | .addRegReg _ _ => 3
  | .jmpNotEq _ _ => 5
  | .pshLit _ => 3
  | .pshReg _ => 2
  | .pop _ => 2
  | .calLit _ => 3
  | .calReg _ => 2
  | .ret => 1
  | .unknownOpcode _ => 1

/-- The mnemonic as spec/opcode_table.json has it (R56). -/
def mnemonicOf : Instr → String
  | .movLitReg _ _ => "MOV_LIT_REG"
  | .movRegReg _ _ => "MOV_REG_REG"
  | .movRegMem _ _ => "MOV_REG_MEM"
  | .movMemReg _ _ => "MOV_MEM_REG"
  | .addRegReg _ _ => "ADD_REG_REG"
  | .jmpNotEq _ _ => "JMP_NOT_EQ"
  | .pshLit _ => "PSH_LIT"
  | .pshReg _ => "PSH_REG"
  | .pop _ => "POP"
  | .calLit _ => "CAL_LIT"
  | .calReg _ => "CAL_REG"
  | .ret => "RET"
  | .unknownOpcode _ => "unknown_opcode"

/-- The five bytes (the longest instruction, R50) of a table word: byte `k` is bits `8k+7..8k` of `w`, and every bit from
`nbits` on is 0. -/
def tableBytes (nbits w : Nat) : List Byte :=
  let v := w % 2 ^ nbits
  [BitVec.ofNat 8 v, BitVec.ofNat 8 (v / 2 ^ 8), BitVec.ofNat 8 (v / 2 ^ 16),
   BitVec.ofNat 8 (v / 2 ^ 24), BitVec.ofNat 8 (v / 2 ^ 32)]

/-- The instruction the decoder reads, under the default map, from a table word of `nbits` bits. -/
def decodeTableWord (nbits w : Nat) : Option Instr :=
  match decode defaultOpc (tableBytes nbits w) with
  | .ok (i, _) => some i
  | .error _ => none

end Sys2Proof
end

