-- ==== Sys2Proof/Machine/State.lean ====
section
/-! DEFINITION. The state of the CORE as plain data: the twelve registers, the frame-size counter, the fault latch and
the memory (spec/10_state.md R27), and the machine's parameters beside them (log 1). -/

namespace Sys2Proof.Machine

/-- The direction of a memory access (spec/60_exceptions.md R121). -/
inductive Dir where
  | read
  | write
  deriving DecidableEq, Repr

/-- The four fatal conditions, each with the info its record holds (spec/60_exceptions.md R120 to R123). The spec uses
"fault" and "fatal condition" interchangeably (spec/00_scope.md R8). A step that raises one LATCHES it in `State.fault`
and answers a next state (R125; log 5): no step and no meaning of this model answers `Outcome.fault`. -/
inductive Fault where
  /-- Code 1. Raised by no step; the answer to a host request that names no register (R123, R169). Safe: the request has
  no effect, as the spec says. -/
  | unknownRegister (name : String)
  /-- Code 2. Raised by every fetch, by MOV_REG_MEM, MOV_MEM_REG and every Push, and the answer to a host access out of
  range (R121, R169). Safe: the spec asks for it. -/
  | outOfBounds (addr width : Nat) (dir : Dir)
  /-- Code 3. Raised only under the policy the spec does not take (R110, R123; log 4). Safe. -/
  | unknownOpcode (byte : Byte)
  /-- Code 4. Raised by every Pop whose `sp + 2` would pass `MEM_SIZE - 2`: POP and RET (R122). Safe: the spec asks for
  it. -/
  | stackUnderflow (t : Nat)
  deriving DecidableEq, Repr

/-- Why a request or an instruction is refused. No step of this model refuses. -/
inductive Refusal where
  /-- An instruction that has no meaning yet. No arm of `exec` answers it: every instruction has its meaning. Safe. -/
  | notModelled (mnemonic : String)
  /-- Raised by construction over a memory whose size is outside 2..65536: no machine is defined over it
  (spec/80_host_interface.md R162, decision D4). Safe. -/
  | memorySizeOutsideDomain (size : Nat)
  /-- Raised by construction with an opcode map in which two mnemonics share a byte (spec/30_encoding.md R62). Safe. -/
  | opcodeMapNotInjective
  deriving DecidableEq, Repr

/-- The fault record `(cause, instr_addr, opcode, info)` (spec/60_exceptions.md R124): `cause` holds the condition and its
info. -/
structure FaultRecord where
  /-- The condition with its info; its number is `causeCode`. -/
  cause : Fault
  /-- The value `ip` had when the step began. -/
  instrAddr : Word
  /-- The opcode byte of the step, or none when the opcode fetch itself raised. -/
  opcode : Option Byte
  deriving DecidableEq, Repr

/-- The register file: twelve 16-bit registers (spec/10_state.md R10, R11). -/
structure RegFile where
  ip : Word
  acc : Word
  r1 : Word
  r2 : Word
  r3 : Word
  r4 : Word
  r5 : Word
  r6 : Word
  r7 : Word
  r8 : Word
  sp : Word
  fp : Word
  deriving DecidableEq, Repr

/-- The memory array (spec/10_state.md R22): the bytes that are not 0x00, addresses strictly rising. A byte not listed
reads 0x00, the value every byte has when the memory is created (R24). `Memory.wf` says the form. -/
structure Memory where
  cells : List Host.Cell
  deriving DecidableEq, Repr

/-- The state of one machine (spec/10_state.md R27). -/
structure State where
  /-- The parameters of the machine (R23: fixed for its life). The MODEL's own field, not state of the spec (log 1). -/
  cfg : Config
  /-- `x[0..11]`. -/
  regs : RegFile
  /-- `FSZ`, the frame-size counter (R19). -/
  fsz : Word
  /-- `FAULT`, the fault latch (R21). -/
  fault : Option FaultRecord
  /-- `mem` (R22). -/
  mem : Memory
  deriving DecidableEq, Repr

/-- The machine right after reset, over a given memory (spec/10_state.md R24, spec/70_reset_and_hazards.md R140):
`sp = fp = MEM_SIZE - 2`, every other register 0, `FSZ` 0, no fault; the memory is left as it is (R141). -/
def State.afterReset (cfg : Config) (mem : Memory) : State where
  cfg := cfg
  regs :=
    { ip := 0, acc := 0, r1 := 0, r2 := 0, r3 := 0, r4 := 0, r5 := 0, r6 := 0, r7 := 0, r8 := 0
      sp := BitVec.ofNat 16 (cfg.memSize - 2), fp := BitVec.ofNat 16 (cfg.memSize - 2) }
  fsz := 0
  fault := none
  mem := mem

/-- The machine right after construction over a new memory, every byte of which is 0x00 (R24), with the parameters of
`resetConfig` (logs 1 to 4). -/
def State.reset : State := State.afterReset resetConfig { cells := [] }

end Sys2Proof.Machine
end

