-- ==== Sys2Proof/Machine/Memory.lean ====
section
/-! DEFINITION. The memory array (spec/20_memory.md): bytes and big-endian words, with no bounds check (the checked
accesses are in Machine/Ops.lean). Addresses here are integers and are never reduced (R36). -/

namespace Sys2Proof.Machine

/-- What a byte that nothing has written reads as (spec/10_state.md R24; log 9). -/
def unwrittenByte : Byte := 0x00

/-- The byte a list of cells holds at an address. -/
def cellsRead : List Host.Cell → Nat → Byte
  | [], _ => unwrittenByte
  | (b, w) :: rest, a => if a = b then w else cellsRead rest a

/-- The list without any entry for address `a`. -/
def cellsErase (a : Nat) : List Host.Cell → List Host.Cell
  | [] => []
  | (b, w) :: rest => if b = a then cellsErase a rest else (b, w) :: cellsErase a rest

/-- The list with an entry for `a` before the first higher address. -/
def cellsInsert (a : Nat) (v : Byte) : List Host.Cell → List Host.Cell
  | [] => [(a, v)]
  | (b, w) :: rest => if a < b then (a, v) :: (b, w) :: rest else (b, w) :: cellsInsert a v rest

/-- Writes a byte. It keeps the canonical form: the addresses rise, and no entry equals what an unlisted byte reads as. -/
def cellsWrite (cells : List Host.Cell) (a : Nat) (v : Byte) : List Host.Cell :=
  if v = unwrittenByte then cellsErase a cells else cellsInsert a v (cellsErase a cells)

/-- The canonical form: every address is above `lo` (where given), addresses rise strictly, and no listed byte is what an
unlisted one reads as. -/
def cellsWf : Option Nat → List Host.Cell → Bool
  | _, [] => true
  | lo, (a, v) :: rest =>
    (match lo with | none => true | some b => decide (b < a)) && decide (v ≠ unwrittenByte) && cellsWf (some a) rest

/-- The canonical form of a memory. -/
def Memory.wf (m : Memory) : Bool := cellsWf none m.cells

/-- Every listed byte is inside the array `mem[0 .. size-1]` (spec/20_memory.md R30). -/
def Memory.within (m : Memory) (size : Nat) : Bool := m.cells.all fun c => decide (c.1 < size)

/-- `mem[a]` (R34). -/
def Memory.byte (m : Memory) (a : Nat) : Byte := cellsRead m.cells a

/-- `mem[a] || mem[a+1]` (R34). -/
def Memory.word (m : Memory) (a : Nat) : Word := wordOf (m.byte a) (m.byte (a + 1))

/-- `mem[a] <- v` (R35). -/
def Memory.setByte (m : Memory) (a : Nat) (v : Byte) : Memory := { cells := cellsWrite m.cells a v }

/-- `mem[a] <- hi8(v)` and `mem[a+1] <- lo8(v)` (R35). -/
def Memory.setWord (m : Memory) (a : Nat) (v : Word) : Memory := (m.setByte a (hi8 v)).setByte (a + 1) (lo8 v)

end Sys2Proof.Machine
end

