-- ==== Sys2Proof/Machine/Ops.lean ====
section
/-! DEFINITION. The named operations of the spec's pseudocode (spec/00_scope.md R7): register and memory access, the
stack and frame primitives, and raising a fatal condition. An operation runs from a state to a result and a state, or
ends at a raise with the state as it stands there: writes made before a raise stay made (spec/60_exceptions.md R126). -/

namespace Sys2Proof.Machine

/-- A block of the spec's pseudocode: statements run strictly in order (R7); `throw` is `raise`, and keeps the state. -/
abbrev Op := EStateM Fault State

/-! ### Registers (spec/10_state.md R10) -/

/-- `x[r]`: the value of a register. -/
def State.reg (s : State) : Reg → Word
  | .ip => s.regs.ip
  | .acc => s.regs.acc
  | .r1 => s.regs.r1
  | .r2 => s.regs.r2
  | .r3 => s.regs.r3
  | .r4 => s.regs.r4
  | .r5 => s.regs.r5
  | .r6 => s.regs.r6
  | .r7 => s.regs.r7
  | .r8 => s.regs.r8
  | .sp => s.regs.sp
  | .fp => s.regs.fp

/-- `x[r] <- v`: replaces the whole 16-bit value of one register and nothing else. -/
def State.setReg (s : State) (r : Reg) (v : Word) : State :=
  match r with
  | .ip => { s with regs := { s.regs with ip := v } }
  | .acc => { s with regs := { s.regs with acc := v } }
  | .r1 => { s with regs := { s.regs with r1 := v } }
  | .r2 => { s with regs := { s.regs with r2 := v } }
  | .r3 => { s with regs := { s.regs with r3 := v } }
  | .r4 => { s with regs := { s.regs with r4 := v } }
  | .r5 => { s with regs := { s.regs with r5 := v } }
  | .r6 => { s with regs := { s.regs with r6 := v } }
  | .r7 => { s with regs := { s.regs with r7 := v } }
  | .r8 => { s with regs := { s.regs with r8 := v } }
  | .sp => { s with regs := { s.regs with sp := v } }
  | .fp => { s with regs := { s.regs with fp := v } }

/-- The state with another frame-size counter. -/
def State.setFsz (s : State) (v : Word) : State := { s with fsz := v }

/-- The state with another memory. -/
def State.setMem (s : State) (m : Memory) : State := { s with mem := m }

/-- The state with another fault latch. -/
def State.setFault (s : State) (f : Option FaultRecord) : State := { s with fault := f }

/-- `x[r]` as a step of a block. -/
def readReg (r : Reg) : Op Word := fun s => .ok (s.reg r) s

/-- `x[r] <- v` as a step of a block. -/
def writeReg (r : Reg) (v : Word) : Op Unit := fun s => .ok () (s.setReg r v)

/-- `FSZ`. -/
def readFsz : Op Word := fun s => .ok s.fsz s

/-- `FSZ <- v`. -/
def writeFsz (v : Word) : Op Unit := fun s => .ok () (s.setFsz v)

/-! ### Memory (spec/20_memory.md R33 to R36) -/

/-- An access of width `n` at `addr` is in range, over the integers (R36; log 11). -/
def State.inRange (s : State) (addr n : Nat) : Bool := decide (addr + n - 1 < s.cfg.memSize)

/-- `MemRead(addr, 1)`. -/
def memRead8 (addr : Nat) : Op Byte := fun s =>
  if s.inRange addr 1 then .ok (s.mem.byte addr) s else .error (.outOfBounds addr 1 .read) s

/-- `MemRead(addr, 2)`. -/
def memRead16 (addr : Nat) : Op Word := fun s =>
  if s.inRange addr 2 then .ok (s.mem.word addr) s else .error (.outOfBounds addr 2 .read) s

/-- `MemWrite(addr, 1, v)`. -/
def memWrite8 (addr : Nat) (v : Byte) : Op Unit := fun s =>
  if s.inRange addr 1 then .ok () (s.setMem (s.mem.setByte addr v)) else .error (.outOfBounds addr 1 .write) s

/-- `MemWrite(addr, 2, v)`: checked whole before either byte is written (R36). -/
def memWrite16 (addr : Nat) (v : Word) : Op Unit := fun s =>
  if s.inRange addr 2 then .ok () (s.setMem (s.mem.setWord addr v)) else .error (.outOfBounds addr 2 .write) s

/-! ### The stack (spec/44_stack.md R90, R91) -/

/-- `Push(v)` (R90): writes at `sp`, then `sp <- sp - 2` and `FSZ <- FSZ + 2`, both modulo 65536 (log 13). -/
def push (v : Word) : Op Unit := do
  let a ← readReg .sp
  memWrite16 a.toNat v
  writeReg .sp (a - 2)
  writeFsz ((← readFsz) + 2)

/-- The raise of `Pop` when the incremented `sp`, not reduced, is above `MEM_SIZE - 2` (R91; log 13). -/
def checkUnderflow (t : Nat) : Op Unit := fun s =>
  if t > s.cfg.memSize - 2 then .error (.stackUnderflow t) s else .ok () s

/-- `Pop()` (R91): checks, then `sp <- sp + 2`, reads there, then `FSZ <- FSZ - 2` modulo 65536. -/
def pop : Op Word := do
  let t := (← readReg .sp).toNat + 2
  checkUnderflow t
  writeReg .sp (BitVec.ofNat 16 t)
  let v ← memRead16 t
  writeFsz ((← readFsz) - 2)
  return v

/-! ### Frames (spec/45_call_return.md R100, R101) -/

/-- The registers a frame saves, in the order `PushState` pushes them (R100). -/
def savedRegs : List Reg := [.r1, .r2, .r3, .r4, .r5, .r6, .r7, .r8, .ip]

/-- Pushes registers in the order listed. -/
def pushRegs : List Reg → Op Unit
  | [] => pure ()
  | r :: rest => do
    push (← readReg r)
    pushRegs rest

/-- `PushState()` (R100): `r1`..`r8`, the return address, and `FSZ + 2`; then `fp <- sp` and `FSZ <- 0`. -/
def pushState : Op Unit := do
  pushRegs savedRegs
  push ((← readFsz) + 2)
  writeReg .fp (← readReg .sp)
  writeFsz 0

/-- Pops into registers in the order listed. -/
def popRegs : List Reg → Op Unit
  | [] => pure ()
  | r :: rest => do
    let v ← pop
    writeReg r v
    popRegs rest

/-- Pops `n` words and drops them. -/
def discard : Nat → Op Unit
  | 0 => pure ()
  | n + 1 => do
    let _ ← pop
    discard n

/-- `FSZ_RELOAD_ADJ` of this machine (R101; log 2). -/
def reloadAdj : Op Word := fun s => .ok s.cfg.fszReloadAdj.amount s

/-- `PopState()` (R101): `sp <- fp`; the frame size, which reloads `FSZ`; `ip` and `r8`..`r1`; the argument count and that
many words dropped (log 14); `fp <- f + size`, with `f` the old `fp`. -/
def popState : Op Unit := do
  let f ← readReg .fp
  writeReg .sp f
  let size ← pop
  writeFsz (size - (← reloadAdj))
  popRegs savedRegs.reverse
  let n ← pop
  discard n.toNat
  writeReg .fp (f + size)

/-! ### Raising a fatal condition (spec/60_exceptions.md R124, R125) -/

/-- The number of a condition (R123; the spec's own numbering, D17, log 23). -/
def causeCode : Fault → Nat
  | .unknownRegister _ => 1
  | .outOfBounds _ _ _ => 2
  | .unknownOpcode _ => 3
  | .stackUnderflow _ => 4

/-- `raise`: the record goes into the latch and nothing else changes (R125). `instrAddr` is the value `ip` had when the
step began and `op` the opcode byte, none while it is not known (R124). There is no handler, no vector and no return:
only reset clears the latch (R127, R132). -/
def raise (f : Fault) (instrAddr : Word) (op : Option Byte) (s : State) : State :=
  s.setFault (some { cause := f, instrAddr := instrAddr, opcode := op })

/-- `ip` moved past the bytes of an instruction, modulo 65536 (spec/10_state.md R14, R15). -/
def advanceIp (n : Nat) (s : State) : State := s.setReg .ip (s.reg .ip + BitVec.ofNat 16 n)

/-- Runs one instruction from the state in which `ip` is its address: its operand bytes have been fetched
(Machine/Fetch.lean), so `ip` stands past them (R14, R76), and then its effect happens (spec/40_engine.md R75). A raise in
the effect is latched with the instruction's address and opcode (R124; log 20). -/
def runInstr (i : Instr) (effect : Op Unit) (s : State) : Host.Outcome State Fault Refusal :=
  match effect (advanceIp (instrLength i) s) with
  | .ok _ t => .next t
  | .error f t => .next (raise f (s.reg .ip) (some (opcodeOf s.cfg.opc i)) t)

end Sys2Proof.Machine
end

