-- ==== Sys2Proof/Machine/Add.lean ====
section
/-! DEFINITION. The one arithmetic instruction (spec/42_add.md). -/

namespace Sys2Proof.Machine

/-- ADD_REG_REG (R85): both addends sampled, then `acc <- (u + v) mod 65536`. -/
def execAddRegReg (regA regB : Reg) (s : State) : Host.Outcome State Fault Refusal :=
  runInstr (.addRegReg regA regB) (do
    let u ← readReg regA
    let v ← readReg regB
    writeReg .acc (sum16 u v)) s

end Sys2Proof.Machine
end

