-- ==== Sys2Proof/Machine/CallReturn.lean ====
section
/-! DEFINITION. Call and return (spec/45_call_return.md section 2). -/

namespace Sys2Proof.Machine

/-- CAL_LIT (R102): `PushState(); ip <- A`. -/
def execCalLit (addr : Word) (s : State) : Host.Outcome State Fault Refusal :=
  runInstr (.calLit addr) (do
    pushState
    writeReg .ip addr) s

/-- CAL_REG (R103): the target is read before `PushState` changes `sp` and `fp` (decision D11, log 16). -/
def execCalReg (reg : Reg) (s : State) : Host.Outcome State Fault Refusal :=
  runInstr (.calReg reg) (do
    let target ← readReg reg
    pushState
    writeReg .ip target) s

/-- RET (R104): `PopState()`. -/
def execRet (s : State) : Host.Outcome State Fault Refusal :=
  runInstr .ret popState s

end Sys2Proof.Machine
end

