-- ==== Sys2Proof/Machine/Jump.lean ====
section
/-! DEFINITION. The conditional jump (spec/43_jump.md). -/

namespace Sys2Proof.Machine

/-- JMP_NOT_EQ (R87): `ip <- A` when the literal and `acc` differ; the target is not checked. -/
def execJmpNotEq (val addr : Word) (s : State) : Host.Outcome State Fault Refusal :=
  runInstr (.jmpNotEq val addr) (do
    let acc ← readReg .acc
    if jumpTaken val acc then writeReg .ip addr else pure ()) s

end Sys2Proof.Machine
end

