-- ==== Sys2Proof/Machine/Move.lean ====
section
/-! DEFINITION. The four moves (spec/41_move.md). The pseudocode of each rule, after the operand fetches. -/

namespace Sys2Proof.Machine

/-- MOV_LIT_REG (R80): `x[d] <- L`. -/
def execMovLitReg (lit : Word) (reg : Reg) (s : State) : Host.Outcome State Fault Refusal :=
  runInstr (.movLitReg lit reg) (writeReg reg lit) s

/-- MOV_REG_REG (R81): `v <- x[s]; x[d] <- v`. -/
def execMovRegReg (regFrom regTo : Reg) (s : State) : Host.Outcome State Fault Refusal :=
  runInstr (.movRegReg regFrom regTo) (do
    let v ← readReg regFrom
    writeReg regTo v) s

/-- MOV_REG_MEM (R82): `v <- x[s]; MemWrite(A, 2, v)`. -/
def execMovRegMem (regFrom : Reg) (addr : Word) (s : State) : Host.Outcome State Fault Refusal :=
  runInstr (.movRegMem regFrom addr) (do
    let v ← readReg regFrom
    memWrite16 addr.toNat v) s

/-- MOV_MEM_REG (R83): `v <- MemRead(A, 2); x[d] <- v`. A 16-bit load (decision D9, log 15). -/
def execMovMemReg (addr : Word) (regTo : Reg) (s : State) : Host.Outcome State Fault Refusal :=
  runInstr (.movMemReg addr regTo) (do
    let v ← memRead16 addr.toNat
    writeReg regTo v) s

end Sys2Proof.Machine
end

