-- ==== Sys2Proof/Machine/Stack.lean ====
section
/-! DEFINITION. The stack instructions (spec/44_stack.md section 2). -/

namespace Sys2Proof.Machine

/-- PSH_LIT (R92): `Push(L)`. -/
def execPshLit (lit : Word) (s : State) : Host.Outcome State Fault Refusal :=
  runInstr (.pshLit lit) (push lit) s

/-- PSH_REG (R93): the register is read before `Push` changes `sp`. -/
def execPshReg (reg : Reg) (s : State) : Host.Outcome State Fault Refusal :=
  runInstr (.pshReg reg) (do
    let v ← readReg reg
    push v) s

/-- POP (R94): the register is written after `Pop` has updated `sp`. -/
def execPop (reg : Reg) (s : State) : Host.Outcome State Fault Refusal :=
  runInstr (.pop reg) (do
    let v ← pop
    writeReg reg v) s

end Sys2Proof.Machine
end

