-- ==== Sys2Proof/Machine/Unknown.lean ====
section
/-! DEFINITION. Opcode bytes outside the instruction set (spec/46_undefined_opcode.md). -/

namespace Sys2Proof.Machine

/-- The machine's `UNKNOWN_OPCODE_POLICY` (spec/00_scope.md R5). -/
def unknownOpcodePolicy : Op UnknownOpcodePolicy := fun s => .ok s.cfg.unknownOpcode s

/-- An unknown opcode (R110): nothing but the advance of `ip` past the byte. The spec documents, and does not take, a
policy under which it raises UnknownOpcode (log 4). -/
def execUnknownOpcode (byte : Byte) (s : State) : Host.Outcome State Fault Refusal :=
  runInstr (.unknownOpcode byte) (do
    match ← unknownOpcodePolicy with
    | .nop => pure ()
    | .fault => throw (.unknownOpcode byte)) s

end Sys2Proof.Machine
end

