-- ==== Sys2Proof/Machine/Dispatch.lean ====
section
/-! DEFINITION. The dispatch on the instruction (spec/40_engine.md R71), one arm per row of the opcode table. -/

namespace Sys2Proof.Machine

def exec (i : Instr) (s : State) : Host.Outcome State Fault Refusal :=
  match i with
  | .movLitReg lit reg => Sys2Proof.Machine.execMovLitReg lit reg s
  | .movRegReg regFrom regTo => Sys2Proof.Machine.execMovRegReg regFrom regTo s
  | .movRegMem regFrom addr => Sys2Proof.Machine.execMovRegMem regFrom addr s
  | .movMemReg addr regTo => Sys2Proof.Machine.execMovMemReg addr regTo s
  | .addRegReg regA regB => Sys2Proof.Machine.execAddRegReg regA regB s
  | .jmpNotEq val addr => Sys2Proof.Machine.execJmpNotEq val addr s
  | .pshLit lit => Sys2Proof.Machine.execPshLit lit s
  | .pshReg reg => Sys2Proof.Machine.execPshReg reg s
  | .pop reg => Sys2Proof.Machine.execPop reg s
  | .calLit addr => Sys2Proof.Machine.execCalLit addr s
  | .calReg reg => Sys2Proof.Machine.execCalReg reg s
  | .ret => Sys2Proof.Machine.execRet s
  | .unknownOpcode byte => Sys2Proof.Machine.execUnknownOpcode byte s

end Sys2Proof.Machine
end

