-- ==== Sys2Proof/Machine/Fetch.lean ====
section
/-! DEFINITION. The fetch of an instruction (spec/40_engine.md section 2): the helpers, in the order and width in which the
engine consumes the bytes, and what a raise inside a fetch leaves. -/

namespace Sys2Proof.Machine

/-- `Fetch8()` (R72): one byte at `ip`; `ip` moves only after the read succeeded. -/
def fetch8 : Op Byte := do
  let a ← readReg .ip
  let b ← memRead8 a.toNat
  writeReg .ip (a + 1)
  return b

/-- `Fetch16()` (R73): one word read at `ip`, checked whole; then `ip` moves by 2 (decision D14, log 12). -/
def fetch16 : Op Word := do
  let a ← readReg .ip
  let w ← memRead16 a.toNat
  writeReg .ip (a + 2)
  return w

/-- `FetchReg()` (R74): a selector byte, reduced to a register (spec/30_encoding.md R54). -/
def fetchReg : Op Reg := do
  let b ← fetch8
  return regOfSelector b

/-- The operand fetches of a layout, in ascending address order (R75), and the instruction they make. -/
def fetchOperands : Layout → Op Instr
  | .f0 i => pure i
  | .fr mk => do
    let a ← fetchReg
    return mk a
  | .frr mk => do
    let a ← fetchReg
    let b ← fetchReg
    return mk a b
  | .fi mk => do
    let w ← fetch16
    return mk w
  | .fir mk => do
    let w ← fetch16
    let a ← fetchReg
    return mk w a
  | .fri mk => do
    let a ← fetchReg
    let w ← fetch16
    return mk a w
  | .fii mk => do
    let v ← fetch16
    let w ← fetch16
    return mk v w

/-- What the fetch phase of a step ends in. -/
inductive Fetched where
  /-- The instruction at `ip`; all its bytes were in range. -/
  | instr (i : Instr)
  /-- A fetch raised; the step ends in this state. -/
  | raised (s : State)
  deriving DecidableEq, Repr

/-- The fetch phase of a step (R71): the opcode byte, then the operands its value asks for. A raise records the address
of the instruction, and the opcode byte once it is known (spec/60_exceptions.md R124). -/
def fetchInstr (s : State) : Fetched :=
  match fetch8 s with
  | .error f t => .raised (raise f (s.reg .ip) none t)
  | .ok op s₁ =>
    match fetchOperands (layoutOf s.cfg.opc op) s₁ with
    | .error f t => .raised (raise f (s.reg .ip) (some op) t)
    | .ok i _ => .instr i

/-- While the latch holds a fault a step does nothing (spec/60_exceptions.md R127). -/
def halted (s : State) : Bool := s.fault.isSome

/-- The `n` bytes of memory from an address on, addresses modulo 65536 (spec/20_memory.md R47), unchecked. -/
def codeBytes (m : Memory) : Nat → Word → List Byte
  | 0, _ => []
  | n + 1, a => m.byte a.toNat :: codeBytes m n (a + 1)

/-- The memory with bytes stored from an address on, addresses modulo 65536; a byte outside the array is not stored. -/
def placeBytes (size : Nat) (m : Memory) (a : Word) : List Byte → Memory
  | [] => m
  | b :: rest => placeBytes size (if a.toNat < size then m.setByte a.toNat b else m) (a + 1) rest

end Sys2Proof.Machine
end

