-- ==== Sys2Proof/Machine/Step.lean ====
section
/-! DEFINITION. One step of the CORE (spec/40_engine.md R71). -/

namespace Sys2Proof.Machine

/-- `Step()` (R71): nothing while halted (spec/60_exceptions.md R127); otherwise the fetch, which may raise, and then the
instruction, run from the state in which `ip` is its address. -/
def step (s : State) : Host.Outcome State Fault Refusal :=
  if halted s then .next s
  else
    match fetchInstr s with
    | .raised t => .next t
    | .instr i => exec i s

/-- The state with the instruction of a table word stored where the next step fetches, at `ip` (log 19): its bytes in the
order of the table's numbering, zeros above `nbits` up to the longest instruction. This stands for the host's raw writes
that load a program (spec/80_host_interface.md R167). -/
def State.withFetchWord (s : State) (nbits w : Nat) : State :=
  s.setMem (placeBytes s.cfg.memSize s.mem (s.reg .ip) (tableBytes nbits w))

end Sys2Proof.Machine
end

