-- ==== Sys2Proof/Machine/Access.lean ====
section
/-! DEFINITION. The memory accesses of each instruction, in order (spec/20_memory.md R47), as data. Nothing of the step
reads these lists: they say, beside the meanings, which accesses a step makes when none faults, and so where it can raise
and in which order (spec/60_exceptions.md R128). -/

namespace Sys2Proof.Machine

/-- What an access is for. -/
inductive AccessKind where
  /-- A fetch or a load: `MemRead`. -/
  | read
  /-- A store or a push: `MemWrite`. -/
  | write
  /-- The read inside `Pop`, guarded by the underflow test (spec/44_stack.md R91). -/
  | popRead
  deriving DecidableEq, Repr

/-- One memory access: an address, a width in bytes and what it is for. -/
structure Access where
  addr : Nat
  width : Nat
  kind : AccessKind
  deriving DecidableEq, Repr

/-- The access is inside a memory of `size` bytes (spec/20_memory.md R36). -/
def Access.fits (size : Nat) (x : Access) : Bool := decide (x.addr + x.width - 1 < size)

/-- What the access raises where it does not fit: a pop raises StackUnderflow before its read (R91, R128), every other
access raises OutOfBoundsMemoryAccess (R121). -/
def Access.condition (x : Access) : Fault :=
  match x.kind with
  | .read => .outOfBounds x.addr x.width .read
  | .write => .outOfBounds x.addr x.width .write
  | .popRead => .stackUnderflow x.addr

/-- A read of width `n` at the address `k` bytes after `a`, modulo 65536 (R47). -/
def fetchAt (a : Word) (k n : Nat) : Access := { addr := (a + BitVec.ofNat 16 k).toNat, width := n, kind := .read }

/-- The fetches of an instruction whose opcode byte is at `a`: the opcode, then the operands in ascending order (R47). -/
def fetchAccesses (a : Word) : Instr → List Access
  | .movLitReg _ _ => [fetchAt a 0 1, fetchAt a 1 2, fetchAt a 3 1]
  | .movRegReg _ _ => [fetchAt a 0 1, fetchAt a 1 1, fetchAt a 2 1]
  | .movRegMem _ _ => [fetchAt a 0 1, fetchAt a 1 1, fetchAt a 2 2]
  | .movMemReg _ _ => [fetchAt a 0 1, fetchAt a 1 2, fetchAt a 3 1]
  | .addRegReg _ _ => [fetchAt a 0 1, fetchAt a 1 1, fetchAt a 2 1]
  | .jmpNotEq _ _ => [fetchAt a 0 1, fetchAt a 1 2, fetchAt a 3 2]
  | .pshLit _ => [fetchAt a 0 1, fetchAt a 1 2]
  | .pshReg _ => [fetchAt a 0 1, fetchAt a 1 1]
  | .pop _ => [fetchAt a 0 1, fetchAt a 1 1]
  | .calLit _ => [fetchAt a 0 1, fetchAt a 1 2]
  | .calReg _ => [fetchAt a 0 1, fetchAt a 1 1]
  | .ret => [fetchAt a 0 1]
  | .unknownOpcode _ => [fetchAt a 0 1]

/-- The address of the `k`-th word a call pushes: `s, s-2, ..., s-18` modulo 65536, with `s` the value of `sp` (R47,
spec/45_call_return.md R100). -/
def frameSlot (s : State) (k : Nat) : Nat := (s.reg .sp - BitVec.ofNat 16 (2 * k)).toNat

/-- The writes of a call: ten words (R47). -/
def callWrites (s : State) : List Access :=
  (List.range 10).map fun k => { addr := frameSlot s k, width := 2, kind := .write }

/-- The argument count RET finds: the word at `f + 22`, with `f` the value of `fp` (R47, spec/45_call_return.md R101). -/
def returnCount (s : State) : Nat := (s.mem.word ((s.reg .fp).toNat + 22)).toNat

/-- The reads of RET: `11 + n` words from `f + 2` up (R47). -/
def returnReads (s : State) : List Access :=
  (List.range (11 + returnCount s)).map fun k => { addr := (s.reg .fp).toNat + 2 + 2 * k, width := 2, kind := .popRead }

/-- The data accesses of an instruction, in order, `s` the state in which the step starts (R47). -/
def dataAccesses (s : State) : Instr → List Access
  | .movLitReg _ _ => []
  | .movRegReg _ _ => []
  | .movRegMem _ addr => [{ addr := addr.toNat, width := 2, kind := .write }]
  | .movMemReg addr _ => [{ addr := addr.toNat, width := 2, kind := .read }]
  | .addRegReg _ _ => []
  | .jmpNotEq _ _ => []
  | .pshLit _ => [{ addr := (s.reg .sp).toNat, width := 2, kind := .write }]
  | .pshReg _ => [{ addr := (s.reg .sp).toNat, width := 2, kind := .write }]
  | .pop _ => [{ addr := (s.reg .sp).toNat + 2, width := 2, kind := .popRead }]
  | .calLit _ => callWrites s
  | .calReg _ => callWrites s
  | .ret => returnReads s
  | .unknownOpcode _ => []

/-- The first access of a list that does not fit a memory of `size` bytes: the one that raises (R128). -/
def firstBad (size : Nat) (accesses : List Access) : Option Access := accesses.find? fun x => !x.fits size

end Sys2Proof.Machine
end

