-- ==== Sys2Proof/Machine/Listing.lean ====
section
/-! DEFINITION. The listing syntax (spec/30_encoding.md R60; the spec's own notation, D22): a mnemonic and its operands in
byte order, separated by spaces, 16-bit operands as `0xHHHH`, registers by name, and a selector byte above 0x0B as
`#0xHH`. -/

namespace Sys2Proof.Machine

/-- The name of a register (spec/10_state.md R11). -/
def regName : Reg → String
  | .ip => "ip"
  | .acc => "acc"
  | .r1 => "r1"
  | .r2 => "r2"
  | .r3 => "r3"
  | .r4 => "r4"
  | .r5 => "r5"
  | .r6 => "r6"
  | .r7 => "r7"
  | .r8 => "r8"
  | .sp => "sp"
  | .fp => "fp"

/-- The hexadecimal digit of a number below 16. -/
def hexDigit (n : Nat) : String :=
  ["0", "1", "2", "3", "4", "5", "6", "7", "8", "9", "A", "B", "C", "D", "E", "F"].getD n "?"

/-- `0xHHHH` (R60). -/
def listWord (h l : Byte) : String :=
  "0x" ++ hexDigit (h.toNat / 16) ++ hexDigit (h.toNat % 16) ++ hexDigit (l.toNat / 16) ++ hexDigit (l.toNat % 16)

/-- A selector byte: the register's name where the byte is canonical, else the raw byte (R60). -/
def listSelector (b : Byte) : String :=
  if b.toNat < 12 then regName (regOfIndex b.toNat)
  else "#0x" ++ hexDigit (b.toNat / 16) ++ hexDigit (b.toNat % 16)

/-- The operands of the listing, in byte order (R60). -/
def listOperands : Layout → List Byte → List String
  | .fr _, a :: _ => [listSelector a]
  | .frr _, a :: b :: _ => [listSelector a, listSelector b]
  | .fi _, h :: l :: _ => [listWord h l]
  | .fir _, h :: l :: a :: _ => [listWord h l, listSelector a]
  | .fri _, a :: h :: l :: _ => [listSelector a, listWord h l]
  | .fii _, h :: l :: h' :: l' :: _ => [listWord h l, listWord h' l']
  | _, _ => []

/-- The listing of the instruction at the front of a list of bytes. The notation has no form for an unknown opcode, nor
for an instruction whose bytes are not all there. -/
def listing (o : Opc) (bytes : List Byte) : Option String :=
  match decode o bytes, bytes with
  | .ok (.unknownOpcode _, _), _ => none
  | .ok (i, _), b :: operands => some (" ".intercalate (mnemonicOf i :: listOperands (layoutOf o b) operands))
  | _, _ => none

end Sys2Proof.Machine
end

