-- ==== Sys2Proof/Machine/HostRequests.lean ====
section
/-! DEFINITION. The boundary to the host (spec/80_host_interface.md): construction and the nine requests, each served whole
between two steps (R161). -/

namespace Sys2Proof.Machine

/-- A register name as the host presents it: one of the twelve, or an invalid one (R164; log 17). -/
inductive HostName where
  | known (r : Reg)
  | invalid (name : String)
  deriving DecidableEq, Repr

/-- The twelve registers in index order (spec/10_state.md R11). -/
def allRegs : List Reg := [.ip, .acc, .r1, .r2, .r3, .r4, .r5, .r6, .r7, .r8, .sp, .fp]

/-- The register name a text is: the twelve lower-case names and no other (R164). -/
def hostName (text : String) : HostName :=
  match allRegs.find? fun r => regName r == text with
  | some r => .known r
  | none => .invalid text

/-- The requests (R160). Addresses and values are natural numbers (log 17). -/
inductive HostRequest where
  | reset
  | step
  | getReg (name : HostName)
  | setReg (name : HostName) (v : Nat)
  | readByte (addr : Nat)
  | readWord (addr : Nat)
  | writeByte (addr v : Nat)
  | writeWord (addr v : Nat)
  | getFault
  deriving DecidableEq, Repr

/-- The replies (R163 to R170). -/
inductive HostAnswer where
  /-- Completion. -/
  | done
  | byte (b : Byte)
  | word (w : Word)
  /-- The fault latch (R170). -/
  | latch (r : Option FaultRecord)
  /-- The request could not be served; it had no effect (R169). -/
  | condition (f : Fault)
  /-- The instruction of a step has no meaning; no step of this model answers it. -/
  | refused (r : Refusal)
  deriving DecidableEq, Repr

/-- HostReset (R162; spec/70_reset_and_hazards.md R140, R141): the registers, `FSZ` and the latch take their reset values,
the memory is not touched. -/
def hostReset (s : State) : State := State.afterReset s.cfg s.mem

/-- The answer to a memory operation of the host; a failed one has no effect (R169). -/
def answerOp {α : Type} (answer : α → HostAnswer) (op : Op α) (s : State) : HostAnswer × State :=
  match op s with
  | .ok a t => (answer a, t)
  | .error f _ => (.condition f, s)

/-- Serves one request (R162 to R171), in every state, halted or not. -/
def serve (q : HostRequest) (s : State) : HostAnswer × State :=
  match q with
  | .reset => (.done, hostReset s)
  | .step =>
    match step s with
    | .next t => (.done, t)
    | .fault f => (.condition f, s)
    | .refused r => (.refused r, s)
  | .getReg (.known r) => (.word (s.reg r), s)
  | .getReg (.invalid name) => (.condition (.unknownRegister name), s)
  | .setReg (.known r) v => (.done, s.setReg r (BitVec.ofNat 16 v))
  | .setReg (.invalid name) _ => (.condition (.unknownRegister name), s)
  | .readByte addr => answerOp .byte (memRead8 addr) s
  | .readWord addr => answerOp .word (memRead16 addr) s
  | .writeByte addr v => answerOp (fun _ => .done) (memWrite8 addr (BitVec.ofNat 8 v)) s
  | .writeWord addr v => answerOp (fun _ => .done) (memWrite16 addr (BitVec.ofNat 16 v)) s
  | .getFault => (.latch s.fault, s)

/-- Serves requests one after another (R161) and keeps the last state. A list of requests has no notion of the end of a
program: that is `run` (Machine/Run.lean). -/
def serveAll : List HostRequest → State → State
  | [], s => s
  | q :: rest, s => serveAll rest (serve q s).2

/-- Construction over a new memory of `cfg.memSize` bytes, all 0x00 (R160, spec/70_reset_and_hazards.md R140, R145). No
machine is defined outside the parameters' domain (R162; spec/30_encoding.md R62). -/
def construct (cfg : Config) : Host.Outcome State Fault Refusal :=
  if cfg.memSize < 2 ∨ 65536 < cfg.memSize then .refused (.memorySizeOutsideDomain cfg.memSize)
  else if cfg.opc.injective then .next (State.afterReset cfg { cells := [] })
  else .refused .opcodeMapNotInjective

end Sys2Proof.Machine
end

