-- ==== Sys2Proof/Machine/Run.lean ====
section
/-! DEFINITION. The end of a run (spec/70_reset_and_hazards.md R156). No instruction ends a run: there is no halt, stop,
wait or break. A run ends because the host sends no further step request, or because a fatal condition halts the machine,
which is never a successful end. What counts as the final state of a program is a convention between it and the host (the
spec's decision D26); the form of that convention here is the model's (log 26). A run is the host's doing: the machine has
no run or run-until request (spec/80_host_interface.md R163), and nothing of the step reads this file. -/

namespace Sys2Proof.Machine

/-- The convention by which the host takes a state as the final state of a program: the two the spec names (R156). -/
inductive EndRule where
  /-- "After exactly k steps". -/
  | afterSteps (k : Nat)
  /-- "When `ip` first equals a given address", looked at before every step, the first included (log 26). -/
  | atAddress (a : Word)
  deriving DecidableEq, Repr

/-- The convention holds of a state reached after `taken` steps. -/
def EndRule.met (rule : EndRule) (taken : Nat) (s : State) : Bool :=
  match rule with
  | .afterSteps k => taken == k
  | .atAddress a => s.reg .ip == a

/-- How a run ends. -/
inductive RunEnd where
  /-- The convention holds and no fault is latched: the one successful end. -/
  | success (s : State)
  /-- A fatal condition halted the machine (spec/60_exceptions.md R127): never a successful end. -/
  | halted (s : State)
  /-- The host stopped sending steps, as it may at any instruction boundary, before the convention held: no final state. -/
  | stopped (s : State)
  deriving DecidableEq, Repr

/-- The state the run ended in. -/
def RunEnd.state : RunEnd → State
  | .success s => s
  | .halted s => s
  | .stopped s => s

/-- The state after `n` step requests of the host (spec/80_host_interface.md R163). -/
def stepMany (n : Nat) (s : State) : State := serveAll (List.replicate n .step) s

/-- A run from a state after `taken` steps: the host sends step requests, at most `budget` of them, until the machine has
halted or the convention holds. A halted machine is looked at first, so a fault is never a success, whatever the
convention. -/
def runFrom (rule : EndRule) (budget taken : Nat) (s : State) : RunEnd :=
  if halted s then .halted s
  else if rule.met taken s then .success s
  else
    match budget with
    | 0 => .stopped s
    | n + 1 => runFrom rule n (taken + 1) (serve .step s).2

/-- A run of at most `budget` steps. -/
def run (rule : EndRule) (budget : Nat) (s : State) : RunEnd := runFrom rule budget 0 s

end Sys2Proof.Machine
end

