-- ==== Sys2Proof/Safety.lean ====
section
/-! DEFINITION. The words the statements use: what a step leaves alone, which registers an instruction may write, what a
fault record may say, and the invariant of the machine. -/

namespace Sys2Proof.Machine

/-- Every byte of memory reads as before. -/
def SameBytes (s t : State) : Prop := ∀ a, t.mem.byte a = s.mem.byte a

/-- The parameters and the fault latch are as before. -/
def SameCfgAndFault (s t : State) : Prop := t.cfg = s.cfg ∧ t.fault = s.fault

/-- The bytes an access writes: none for a read. -/
def Access.writes (x : Access) (a : Nat) : Prop := x.kind = .write ∧ x.addr ≤ a ∧ a < x.addr + x.width

/-- The value of a register operand of an instruction whose opcode byte is at `ip`: operands are read after the last byte
was fetched, so `ip` reads as the address of the next instruction (spec/40_engine.md R75, R76). -/
def operandValue (i : Instr) (s : State) (r : Reg) : Word :=
  if r = .ip then s.reg .ip + BitVec.ofNat 16 (instrLength i) else s.reg r

/-- The bytes at `ip` are the instruction `i` (and whatever follows it). -/
def CodeIs (s : State) (i : Instr) : Prop :=
  ∃ rest, decode s.cfg.opc (codeBytes s.mem 5 (s.reg .ip)) = .ok (i, rest)

/-- The record a step makes when it raises `f`: the instruction's address and its opcode byte, none where that byte
itself is out of range (spec/60_exceptions.md R124). -/
def recordAt (s : State) (f : Fault) : FaultRecord :=
  { cause := f, instrAddr := s.reg .ip
    opcode := if (s.reg .ip).toNat < s.cfg.memSize then some (s.mem.byte (s.reg .ip).toNat) else none }

/-- The fetches of `i` raise as listed: where the first of them that is out of range stands at `x`, the step ends there,
with `ip` moved past the bytes fetched before it and nothing else changed but the latch (spec/60_exceptions.md R121,
R126, R128). That a 16-bit operand is one fetch, so that `ip` stays at its first byte where only that byte is in range, is
the spec's decision D14 (log 12); the latch is its decision D16 (log 5). -/
def FetchesRaiseAsListed (i : Instr) : Prop :=
  ∀ (s : State) (x : Access), s.fault = none → CodeIs s i →
    firstBad s.cfg.memSize (fetchAccesses (s.reg .ip) i) = some x →
      step s = .next ((s.setReg .ip (BitVec.ofNat 16 x.addr)).setFault (some (recordAt s x.condition)))

/-- The registers an instruction may write: its destination, and those it writes without naming them
(spec/10_state.md R13). -/
def writtenRegs : Instr → List Reg
  | .movLitReg _ reg => [.ip, reg]
  | .movRegReg _ regTo => [.ip, regTo]
  | .movRegMem _ _ => [.ip]
  | .movMemReg _ regTo => [.ip, regTo]
  | .addRegReg _ _ => [.ip, .acc]
  | .jmpNotEq _ _ => [.ip]
  | .pshLit _ => [.ip, .sp]
  | .pshReg _ => [.ip, .sp]
  | .pop reg => [.ip, .sp, reg]
  | .calLit _ => [.ip, .sp, .fp]
  | .calReg _ => [.ip, .sp, .fp]
  | .ret => [.ip, .sp, .fp, .r1, .r2, .r3, .r4, .r5, .r6, .r7, .r8]
  | .unknownOpcode _ => [.ip]

/-- The instruction pushes or pops, so it may change `FSZ` (spec/10_state.md R19). -/
def usesStack : Instr → Bool
  | .movLitReg _ _ => false
  | .movRegReg _ _ => false
  | .movRegMem _ _ => false
  | .movMemReg _ _ => false
  | .addRegReg _ _ => false
  | .jmpNotEq _ _ => false
  | .pshLit _ => true
  | .pshReg _ => true
  | .pop _ => true
  | .calLit _ => true
  | .calReg _ => true
  | .ret => true
  | .unknownOpcode _ => false

/-- The instruction may set `ip` otherwise than by passing its own bytes (spec/43_jump.md R88). -/
def mayTransfer : Instr → Bool
  | .movLitReg _ reg => reg == .ip
  | .movRegReg _ regTo => regTo == .ip
  | .movRegMem _ _ => false
  | .movMemReg _ regTo => regTo == .ip
  | .addRegReg _ _ => false
  | .jmpNotEq _ _ => true
  | .pshLit _ => false
  | .pshReg _ => false
  | .pop reg => reg == .ip
  | .calLit _ => true
  | .calReg _ => true
  | .ret => true
  | .unknownOpcode _ => false

/-- The opcode bytes of the instructions that store or push. -/
def writerOpcodes (o : Opc) : List Byte := [o.movRegMem, o.pshLit, o.pshReg, o.calLit, o.calReg]

/-- The opcode bytes of the instructions that pop (spec/60_exceptions.md R122). -/
def popperOpcodes (o : Opc) : List Byte := [o.pop, o.ret]

/-- What the fault record of a step can be (spec/60_exceptions.md R121 to R124): never UnknownRegister; out of bounds only
for an access that is, a write only from an instruction that writes, and with no opcode only for the opcode fetch;
StackUnderflow only from POP or RET, for a `t` above `MEM_SIZE - 2`; UnknownOpcode only under the policy not taken. -/
def FaultRecord.legit (c : Config) (r : FaultRecord) : Bool :=
  match r.cause with
  | .unknownRegister _ => false
  | .outOfBounds addr n dir =>
    decide (c.memSize ≤ addr + n - 1) && decide (addr < 65536) && decide (n = 1 ∨ n = 2) &&
      (match dir with
        | .write => decide (n = 2) && (writerOpcodes c.opc).any fun b => r.opcode == some b
        | .read => r.opcode.isSome || (decide (n = 1) && decide (addr = r.instrAddr.toNat)))
  | .unknownOpcode b => decide (c.unknownOpcode = .fault) && decide (r.opcode = some b) && !c.opc.knows b
  | .stackUnderflow t =>
    decide (c.memSize - 2 < t) && decide (2 ≤ t) && decide (t ≤ 65537) &&
      (popperOpcodes c.opc).any fun b => r.opcode == some b

/-- The invariant of the machine: the parameters are in their domain, the memory is in canonical form and inside
`MEM_SIZE`, and a latched record is one a step can make. -/
def State.inv (s : State) : Bool :=
  s.cfg.wf && s.mem.wf && s.mem.within s.cfg.memSize &&
    (match s.fault with
      | none => true
      | some r => r.legit s.cfg)

end Sys2Proof.Machine
end

