-- ==== Sys2Proof/Certificates/Slice0/Obligations.lean ====
section
/-! DEFINITION. The statements for the provers. Each docstring names the rule or section of spec/ it comes from. "Room"
conditions are over the integers, as the bounds check is (spec/20_memory.md R36). -/

open Sys2Proof Sys2Proof.Machine

/-! ### Encoding -/

/-- spec/30_encoding.md sections 2 to 4: under an injective opcode map, decoding the bytes of a well-formed instruction,
with anything after them, gives the instruction and what is after. -/
def Obligations.DecodeReadsBackEncode : Prop :=
  ∀ (o : Opc) (i : Instr) (rest : List Byte), o.injective = true → i.wf o = true →
    decode o (encode o i ++ rest) = .ok (i, rest)

/-- spec/30_encoding.md sections 1, 5 and 6: any five bytes begin with an instruction; it is well-formed, its opcode is the
first byte, and the bytes after its own are not read. -/
def Obligations.AnyFiveBytesDecode : Prop :=
  ∀ (o : Opc) (bytes : List Byte), 5 ≤ bytes.length →
    ∃ i, decode o bytes = .ok (i, bytes.drop (instrLength i)) ∧
      decode o (bytes.take (instrLength i)) = .ok (i, []) ∧
      i.wf o = true ∧ bytes.head? = some (opcodeOf o i) ∧ 1 ≤ instrLength i ∧ instrLength i ≤ 5

/-- spec/30_encoding.md sections 1 to 4: a selector byte selects the register of index `b mod 12`, in every register operand
of every instruction; 22 bytes select each of the indices 0..3 and 21 each of 4..11. At which byte each operand stands is
the spec's decision D2, and which number a register has its decision D3 (log 10). -/
def Obligations.SelectorsReduceModuloTwelve : Prop :=
  (∀ b : Byte, regIndex (regOfSelector b) = b.toNat % 12) ∧
  (∀ r : Reg, ((List.range 256).filter fun n => regOfSelector (BitVec.ofNat 8 n) = r).length =
    if regIndex r < 4 then 22 else 21) ∧
  ∀ (o : Opc) (a c h l : Byte), o.injective = true →
    decode o [o.movLitReg, h, l, a] = .ok (.movLitReg (wordOf h l) (regOfSelector a), []) ∧
    decode o [o.movRegReg, a, c] = .ok (.movRegReg (regOfSelector a) (regOfSelector c), []) ∧
    decode o [o.movRegMem, a, h, l] = .ok (.movRegMem (regOfSelector a) (wordOf h l), []) ∧
    decode o [o.movMemReg, h, l, a] = .ok (.movMemReg (wordOf h l) (regOfSelector a), []) ∧
    decode o [o.addRegReg, a, c] = .ok (.addRegReg (regOfSelector a) (regOfSelector c), []) ∧
    decode o [o.pshReg, a] = .ok (.pshReg (regOfSelector a), []) ∧
    decode o [o.pop, a] = .ok (.pop (regOfSelector a), []) ∧
    decode o [o.calReg, a] = .ok (.calReg (regOfSelector a), [])

/-- spec/30_encoding.md sections 1 to 4: a 16-bit operand is the word `h * 256 + l` of its two bytes, in every instruction
that has one, and in no other way. At which bytes each operand stands is the spec's decision D2 (log 10). -/
def Obligations.SixteenBitOperandsAreBigEndian : Prop :=
  (∀ h l : Byte, (wordOf h l).toNat = h.toNat * 256 + l.toNat) ∧
  ∀ (o : Opc) (a h l h' l' : Byte), o.injective = true →
    decode o [o.movLitReg, h, l, a] = .ok (.movLitReg (wordOf h l) (regOfSelector a), []) ∧
    decode o [o.movRegMem, a, h, l] = .ok (.movRegMem (regOfSelector a) (wordOf h l), []) ∧
    decode o [o.movMemReg, h, l, a] = .ok (.movMemReg (wordOf h l) (regOfSelector a), []) ∧
    decode o [o.jmpNotEq, h, l, h', l'] = .ok (.jmpNotEq (wordOf h l) (wordOf h' l'), []) ∧
    decode o [o.pshLit, h, l] = .ok (.pshLit (wordOf h l), []) ∧
    decode o [o.calLit, h, l] = .ok (.calLit (wordOf h l), [])

/-- spec/30_encoding.md section 5: a byte outside the map is an instruction of one byte, whatever follows; with the
default map 244 bytes are, 0x00 among them. The default map is the model's choice among the spec's parameters (log 3).
It rests on the spec's decision D12 (an unknown opcode is a one-byte no-op; log 4). -/
def Obligations.UnknownBytesAreOneByteInstructions : Prop :=
  (∀ (o : Opc) (b : Byte) (rest : List Byte), b ∉ o.bytes → decode o (b :: rest) = .ok (.unknownOpcode b, rest)) ∧
  ((List.range 256).filter fun n => !defaultOpc.knows (BitVec.ofNat 8 n)).length = 244 ∧
  defaultOpc.knows 0x00 = false

/-- spec/95_test_vectors.md part 3 (P1, P2, P3) and part 2 (V33): words written out in the spec decode to the
instructions it lists beside them. The default map is the model's choice among the spec's parameters (log 3); the order of
the operand bytes and the register numbers are the spec's decisions D2 and D3 (log 10). -/
def Obligations.WrittenOutWordsDecode : Prop :=
  decode defaultOpc [0x10, 0x12, 0x34, 0x02] = .ok (.movLitReg 0x1234 .r1, []) ∧
  decode defaultOpc [0x11, 0x01, 0x06] = .ok (.movRegReg .acc .r5, []) ∧
  decode defaultOpc [0x12, 0x01, 0x01, 0x00] = .ok (.movRegMem .acc 0x0100, []) ∧
  decode defaultOpc [0x13, 0x01, 0x00, 0x02] = .ok (.movMemReg 0x0100 .r1, []) ∧
  decode defaultOpc [0x14, 0x02, 0x03] = .ok (.addRegReg .r1 .r2, []) ∧
  decode defaultOpc [0x15, 0x00, 0x03, 0x00, 0x00] = .ok (.jmpNotEq 0x0003 0x0000, []) ∧
  decode defaultOpc [0x17, 0x44, 0x44] = .ok (.pshLit 0x4444, []) ∧
  decode defaultOpc [0x18, 0x0A] = .ok (.pshReg .sp, []) ∧
  decode defaultOpc [0x1A, 0x02] = .ok (.pop .r1, []) ∧
  decode defaultOpc [0x5E, 0x00, 0x30] = .ok (.calLit 0x0030, []) ∧
  decode defaultOpc [0x5F, 0x0A] = .ok (.calReg .sp, []) ∧
  decode defaultOpc [0x60] = .ok (.ret, [])

/-! ### The step -/

/-- spec/40_engine.md section 2: `Fetch8` reads the byte at `ip` and then advances `ip` by 1, or raises with `ip`
unmoved; `FetchReg` is `Fetch8` with the byte reduced modulo 12, and fails only where `Fetch8` does. It rests on the
spec's decisions D24 (ip wraps; log 12); D3 (register numbers start at 0; log 10). -/
def Obligations.FetchByteAndSelectorAdvanceIp : Prop :=
  ∀ s : State,
    ((s.reg .ip).toNat < s.cfg.memSize →
      fetch8 s = .ok (s.mem.byte (s.reg .ip).toNat) (s.setReg .ip (s.reg .ip + 1)) ∧
      fetchReg s = .ok (regOfIndex ((s.mem.byte (s.reg .ip).toNat).toNat % 12)) (s.setReg .ip (s.reg .ip + 1))) ∧
    (s.cfg.memSize ≤ (s.reg .ip).toNat →
      fetch8 s = .error (.outOfBounds (s.reg .ip).toNat 1 .read) s ∧
      fetchReg s = .error (.outOfBounds (s.reg .ip).toNat 1 .read) s)

/-- spec/40_engine.md section 2 (Fetch16): the word at `ip`, `ip` advanced by 2; a word not wholly in range is not
read and `ip` does not move. It rests on the spec's decisions D14 (a 16-bit operand is one fetch; log 12); D13 (a word
is checked whole before any byte moves; log 11); D24 (ip wraps; log 12). -/
def Obligations.FetchWordAdvancesIpByTwo : Prop :=
  ∀ s : State,
    ((s.reg .ip).toNat + 1 < s.cfg.memSize →
      fetch16 s = .ok (wordOf (s.mem.byte (s.reg .ip).toNat) (s.mem.byte ((s.reg .ip).toNat + 1)))
        (s.setReg .ip (s.reg .ip + 2))) ∧
    (s.cfg.memSize ≤ (s.reg .ip).toNat + 1 → fetch16 s = .error (.outOfBounds (s.reg .ip).toNat 2 .read) s)

/-- spec/40_engine.md sections 1 to 3: a step of a running machine (parameters in their domain) whose next bytes are the
instruction `i`, all its fetches in range, is `exec` of `i` at that state; `exec` itself moves `ip` past the instruction's bytes. -/
def Obligations.StepRunsTheDecodedInstruction : Prop :=
  ∀ (s : State) (i : Instr), s.cfg.wf = true → s.fault = none → CodeIs s i →
    (∀ x ∈ fetchAccesses (s.reg .ip) i, x.fits s.cfg.memSize = true) → step s = exec i s

/-- spec/60_exceptions.md sections 1 to 3: for every instruction, a fetch out of range ends the step at the first such
fetch, with the record, `ip` past the bytes fetched and nothing else changed. That a 16-bit operand is one fetch, so that
`ip` stays at its first byte where only that byte is in range, is the spec's decision D14 (log 12); the record in the latch
is its decision D16 (log 5). -/
def Obligations.FetchRaisesAtItsFirstBadAccess : Prop :=
  ∀ i : Instr, FetchesRaiseAsListed i

/-- spec/40_engine.md sections 1 and 4: every step, in every state, ends in a next state. That a fatal condition is a
latched record, and so a next state, is the spec's decision D16 (log 5). -/
def Obligations.EveryStepAnswersANextState : Prop :=
  ∀ s : State, ∃ t, step s = .next t

/-- spec/60_exceptions.md section 2 (Halted) and spec/80_host_interface.md section 6: a halted machine does not step;
no request but reset clears or changes the latch; reading requests answer as on the machine that is not halted. It
rests on the spec's decisions D16 (a fatal condition is a record in the latch, with the effects made so far kept; log
5); D25 (host access while halted; log 18). -/
def Obligations.HaltedMachineStaysHaltedUntilReset : Prop :=
  ∀ (s : State) (r : FaultRecord), s.fault = some r →
    step s = .next s ∧
    (∀ q, q ≠ .reset → (serve q s).2.fault = some r) ∧
    (serve .reset s).2.fault = none ∧
    (∀ name, serve (.getReg name) s = ((serve (.getReg name) (s.setFault none)).1, s)) ∧
    (∀ a, serve (.readByte a) s = ((serve (.readByte a) (s.setFault none)).1, s)) ∧
    (∀ a, serve (.readWord a) s = ((serve (.readWord a) (s.setFault none)).1, s)) ∧
    serve .getFault s = (.latch (some r), s)

/-- spec/60_exceptions.md section 2 (the fault record): a step that raises records the value `ip` had when it began, and
the opcode byte, or none when the opcode fetch itself raised. That the record is kept in a latch is the spec's decision D16
(log 5). -/
def Obligations.FaultRecordNamesTheInstruction : Prop :=
  ∀ (s t : State) (r : FaultRecord), s.fault = none → step s = .next t → t.fault = some r →
    r = recordAt s r.cause

/-! ### Registers and memory -/

/-- R10: twelve registers; a write replaces the whole value of the one register and changes no other, none is hardwired,
and nothing beside the register file changes. -/
def Obligations.RegisterWriteChangesOneRegister : Prop :=
  (∀ r, regOfIndex (regIndex r) = r ∧ regIndex r < 12) ∧
  (∀ n, n < 12 → regIndex (regOfIndex n) = n) ∧
  ∀ (s : State) (r : Reg) (v : Word),
    (∀ q, (s.setReg r v).reg q = if q = r then v else s.reg q) ∧ (s.setReg r v).fsz = s.fsz ∧
    SameCfgAndFault s (s.setReg r v) ∧ SameBytes s (s.setReg r v)

/-- R34 and R35: an access in range reads the byte or the big-endian word and changes no state, or writes the byte or the
two bytes of the word and changes no other byte and nothing else. -/
def Obligations.AccessesInRangeReadAndWriteBigEndian : Prop :=
  ∀ (s : State) (a : Nat),
    (a < s.cfg.memSize → memRead8 a s = .ok (s.mem.byte a) s) ∧
    (a + 1 < s.cfg.memSize →
      ∃ w : Word, memRead16 a s = .ok w s ∧ w.toNat = (s.mem.byte a).toNat * 256 + (s.mem.byte (a + 1)).toNat) ∧
    (a < s.cfg.memSize → ∀ v : Byte, ∃ t, memWrite8 a v s = .ok () t ∧
      (∀ b, t.mem.byte b = if b = a then v else s.mem.byte b) ∧
      (∀ q, t.reg q = s.reg q) ∧ t.fsz = s.fsz ∧ SameCfgAndFault s t) ∧
    (a + 1 < s.cfg.memSize → ∀ v : Word, ∃ t, memWrite16 a v s = .ok () t ∧
      (∀ b, t.mem.byte b = if b = a then v.extractLsb' 8 8 else if b = a + 1 then v.extractLsb' 0 8 else s.mem.byte b) ∧
      (∀ q, t.reg q = s.reg q) ∧ t.fsz = s.fsz ∧ SameCfgAndFault s t)

/-- spec/20_memory.md section 2 (bounds): an access not wholly in range raises OutOfBoundsMemoryAccess and changes no
state. It rests on the spec's decision D13 (a word is checked whole before any byte moves; log 11). -/
def Obligations.AccessesOutOfRangeTransferNothing : Prop :=
  ∀ (s : State) (a : Nat),
    (s.cfg.memSize ≤ a → memRead8 a s = .error (.outOfBounds a 1 .read) s ∧
      ∀ v, memWrite8 a v s = .error (.outOfBounds a 1 .write) s) ∧
    (s.cfg.memSize ≤ a + 1 → memRead16 a s = .error (.outOfBounds a 2 .read) s ∧
      ∀ v, memWrite16 a v s = .error (.outOfBounds a 2 .write) s)

/-- The model's own canonical form of the memory array of spec/20_memory.md section 1 (log 9): two memories in that form
that read the same at every address are the same data. -/
def Obligations.EqualReadsMeanEqualMemories : Prop :=
  ∀ m m' : Memory, m.wf = true → m'.wf = true → (∀ a, m'.byte a = m.byte a) → m' = m

/-- spec/20_memory.md section 9: a word stored where `ip` points is what the next fetches read, with nothing in
between. It rests on the spec's decisions D10 (register operands are read after the fetches, so ip reads as the next
address; log 16); D14 (a 16-bit operand is one fetch; log 12). `ip` wraps modulo 65536 by its decision D24 (log 12).
-/
def Obligations.StoredWordIsFetchedNext : Prop :=
  ∀ (s t : State) (r : Reg) (addr : Word), addr.toNat + 1 < s.cfg.memSize →
    exec (.movRegMem r addr) s = .next t → s.reg .ip + 4 = addr →
      fetch8 t = .ok (hi8 (operandValue (.movRegMem r addr) s r)) (t.setReg .ip (addr + 1)) ∧
      fetch16 t = .ok (operandValue (.movRegMem r addr) s r) (t.setReg .ip (addr + 2))

/-! ### The instructions -/

/-- spec/41_move.md, MOV_LIT_REG: its bytes, its fetches and what they raise, and its effect for every literal and
every register: `x[d] <- L`, `ip` past the four bytes (or `L`, when `d` is `ip`), nothing else. That the literal is
one fetch, so that `ip` stays at its first byte where only that byte is in range, is the spec's decision D14 (log 12).
It rests also on the spec's decision D16 (a fatal condition is a record in the latch, with the effects made so far
kept; log 5). Its bytes stand as the spec's decisions D2 and D3 (log 10) order them, and `ip` wraps modulo 65536 by
its decision D24 (log 12). -/
def Obligations.MovLitRegWritesTheLiteral : Prop :=
  ∀ (lit : Word) (d : Reg) (s : State),
    encode s.cfg.opc (.movLitReg lit d) = [s.cfg.opc.movLitReg, hi8 lit, lo8 lit, selectorOf d] ∧
    fetchAccesses (s.reg .ip) (.movLitReg lit d) =
      [fetchAt (s.reg .ip) 0 1, fetchAt (s.reg .ip) 1 2, fetchAt (s.reg .ip) 3 1] ∧
    FetchesRaiseAsListed (.movLitReg lit d) ∧
    ∃ t, exec (.movLitReg lit d) s = .next t ∧
      (∀ q, t.reg q = if q = d then lit else if q = .ip then s.reg .ip + 4 else s.reg q) ∧
      t.fsz = s.fsz ∧ SameCfgAndFault s t ∧ SameBytes s t

/-- spec/41_move.md, MOV_REG_REG: its bytes, its fetches and what they raise, and its effect for every two registers:
`x[d] <- x[s]`, the source read after the fetches (`ip` as the next address), nothing else. It rests on the spec's
decisions D10 (register operands are read after the fetches, so ip reads as the next address; log 16); D16 (a fatal
condition is a record in the latch, with the effects made so far kept; log 5). Its bytes stand as the spec's decisions
D2 and D3 (log 10) order them, and `ip` wraps modulo 65536 by its decision D24 (log 12). -/
def Obligations.MovRegRegCopiesTheRegister : Prop :=
  ∀ (src d : Reg) (s : State),
    encode s.cfg.opc (.movRegReg src d) = [s.cfg.opc.movRegReg, selectorOf src, selectorOf d] ∧
    fetchAccesses (s.reg .ip) (.movRegReg src d) =
      [fetchAt (s.reg .ip) 0 1, fetchAt (s.reg .ip) 1 1, fetchAt (s.reg .ip) 2 1] ∧
    FetchesRaiseAsListed (.movRegReg src d) ∧
    ∃ t, exec (.movRegReg src d) s = .next t ∧
      (∀ q, t.reg q = if q = d then (if src = .ip then s.reg .ip + 3 else s.reg src)
        else if q = .ip then s.reg .ip + 3 else s.reg q) ∧
      t.fsz = s.fsz ∧ SameCfgAndFault s t ∧ SameBytes s t

/-- spec/41_move.md, MOV_REG_MEM: its bytes, its fetches and what they raise; with room, the two bytes of the register
at `A` and `A + 1`, high byte first, and no other byte, no register but `ip`; without room, OutOfBoundsMemoryAccess(A,
2, write), neither byte written, `ip` past the instruction. That the address is one fetch, so that `ip` stays at its
first byte where only that byte is in range, is the spec's decision D14 (log 12). It rests also on the spec's
decisions D10 (register operands are read after the fetches, so ip reads as the next address; log 16); D13 (a word is
checked whole before any byte moves; log 11); D16 (a fatal condition is a record in the latch, with the effects made
so far kept; log 5). Its bytes stand as the spec's decisions D2 and D3 (log 10) order them, and `ip` wraps modulo
65536 by its decision D24 (log 12). -/
def Obligations.MovRegMemStoresTheWord : Prop :=
  ∀ (src : Reg) (addr : Word) (s : State),
    encode s.cfg.opc (.movRegMem src addr) = [s.cfg.opc.movRegMem, selectorOf src, hi8 addr, lo8 addr] ∧
    fetchAccesses (s.reg .ip) (.movRegMem src addr) =
      [fetchAt (s.reg .ip) 0 1, fetchAt (s.reg .ip) 1 1, fetchAt (s.reg .ip) 2 2] ∧
    FetchesRaiseAsListed (.movRegMem src addr) ∧
    (addr.toNat + 1 < s.cfg.memSize → ∃ t, exec (.movRegMem src addr) s = .next t ∧
      t.mem.byte addr.toNat = hi8 (operandValue (.movRegMem src addr) s src) ∧
      t.mem.byte (addr.toNat + 1) = lo8 (operandValue (.movRegMem src addr) s src) ∧
      (∀ a, a ≠ addr.toNat → a ≠ addr.toNat + 1 → t.mem.byte a = s.mem.byte a) ∧
      (∀ q, t.reg q = if q = .ip then s.reg .ip + 4 else s.reg q) ∧
      t.fsz = s.fsz ∧ SameCfgAndFault s t) ∧
    (s.cfg.memSize ≤ addr.toNat + 1 → ∃ t, exec (.movRegMem src addr) s = .next t ∧
      t.fault = some { cause := .outOfBounds addr.toNat 2 .write, instrAddr := s.reg .ip,
                       opcode := some s.cfg.opc.movRegMem } ∧
      SameBytes s t ∧ (∀ q, t.reg q = if q = .ip then s.reg .ip + 4 else s.reg q) ∧ t.fsz = s.fsz ∧ t.cfg = s.cfg)

/-- spec/41_move.md (MOV_MEM_REG): with room, the register holds the big-endian word at `A`; without room,
OutOfBoundsMemoryAccess(A, 2, read) and no register but `ip` changes. It rests on the spec's decisions D9 (the 16-bit
load; log 15); D13 (a word is checked whole before any byte moves; log 11); D16 (a fatal condition is a record in the
latch, with the effects made so far kept; log 5). `ip` wraps modulo 65536 by its decision D24 (log 12). -/
def Obligations.MovMemRegLoadsTheWord : Prop :=
  ∀ (addr : Word) (d : Reg) (s : State),
    (addr.toNat + 1 < s.cfg.memSize → ∃ t, exec (.movMemReg addr d) s = .next t ∧
      (∀ q, t.reg q = if q = d then wordOf (s.mem.byte addr.toNat) (s.mem.byte (addr.toNat + 1))
        else if q = .ip then s.reg .ip + 4 else s.reg q) ∧
      t.fsz = s.fsz ∧ SameCfgAndFault s t ∧ SameBytes s t) ∧
    (s.cfg.memSize ≤ addr.toNat + 1 → ∃ t, exec (.movMemReg addr d) s = .next t ∧
      t.fault = some { cause := .outOfBounds addr.toNat 2 .read, instrAddr := s.reg .ip,
                       opcode := some s.cfg.opc.movMemReg } ∧
      SameBytes s t ∧ (∀ q, t.reg q = if q = .ip then s.reg .ip + 4 else s.reg q) ∧ t.fsz = s.fsz ∧ t.cfg = s.cfg)

/-- spec/42_add.md, ADD_REG_REG: its bytes, its fetches and what they raise, and its effect for every two registers:
`acc` is the sum modulo 65536 of the two, both read before `acc` is written and `ip` read as the next address; nothing
else. It rests on the spec's decisions D10 (register operands are read after the fetches, so ip reads as the next
address; log 16); D16 (a fatal condition is a record in the latch, with the effects made so far kept; log 5). Its
bytes stand as the spec's decisions D2 and D3 (log 10) order them, and `ip` wraps modulo 65536 by its decision D24
(log 12). -/
def Obligations.AddRegRegSumsIntoAcc : Prop :=
  ∀ (p q : Reg) (s : State),
    encode s.cfg.opc (.addRegReg p q) = [s.cfg.opc.addRegReg, selectorOf p, selectorOf q] ∧
    fetchAccesses (s.reg .ip) (.addRegReg p q) =
      [fetchAt (s.reg .ip) 0 1, fetchAt (s.reg .ip) 1 1, fetchAt (s.reg .ip) 2 1] ∧
    FetchesRaiseAsListed (.addRegReg p q) ∧
    ∃ t, exec (.addRegReg p q) s = .next t ∧
      (t.reg .acc).toNat =
        ((operandValue (.addRegReg p q) s p).toNat + (operandValue (.addRegReg p q) s q).toNat) % 65536 ∧
      (∀ r, r ≠ .acc → t.reg r = if r = .ip then s.reg .ip + 3 else s.reg r) ∧
      t.fsz = s.fsz ∧ SameCfgAndFault s t ∧ SameBytes s t

/-- spec/43_jump.md, JMP_NOT_EQ: its bytes, its fetches and what they raise; `ip` is the target when the literal and
all 16 bits of `acc` differ, else the address after the five bytes; the target is not checked, and one outside memory
raises only at the next step's opcode fetch. That each 16-bit operand is one fetch, so that `ip` stays at its first
byte where only that byte is in range, is the spec's decision D14 (log 12). It rests also on the spec's decision D16
(a fatal condition is a record in the latch, with the effects made so far kept; log 5). Its bytes stand as the spec's
decisions D2 and D3 (log 10) order them, and `ip` wraps modulo 65536 by its decision D24 (log 12). -/
def Obligations.JmpNotEqJumpsWhenAccDiffers : Prop :=
  ∀ (val addr : Word) (s : State),
    encode s.cfg.opc (.jmpNotEq val addr) = [s.cfg.opc.jmpNotEq, hi8 val, lo8 val, hi8 addr, lo8 addr] ∧
    fetchAccesses (s.reg .ip) (.jmpNotEq val addr) =
      [fetchAt (s.reg .ip) 0 1, fetchAt (s.reg .ip) 1 2, fetchAt (s.reg .ip) 3 2] ∧
    FetchesRaiseAsListed (.jmpNotEq val addr) ∧
    ∃ t, exec (.jmpNotEq val addr) s = .next t ∧
      (∀ q, t.reg q = if q = .ip then (if val ≠ s.reg .acc then addr else s.reg .ip + 5) else s.reg q) ∧
      t.fsz = s.fsz ∧ SameCfgAndFault s t ∧ SameBytes s t ∧
      (val ≠ s.reg .acc → s.cfg.memSize ≤ addr.toNat → s.fault = none →
        step t = .next (t.setFault (some { cause := .outOfBounds addr.toNat 1 .read, instrAddr := addr, opcode := none })))

/-- spec/44_stack.md, PSH_LIT: its bytes, its fetches and what they raise; with room, the literal at `sp`, high byte
first, `sp` down by 2 and `FSZ` up by 2 modulo 65536, nothing else; without room, OutOfBoundsMemoryAccess(sp, 2,
write) and nothing but `ip` and the latch changes. That the literal is one fetch, so that `ip` stays at its first byte
where only that byte is in range, is the spec's decision D14 (log 12). It rests also on the spec's decisions D13 (a
word is checked whole before any byte moves; log 11); D16 (a fatal condition is a record in the latch, with the
effects made so far kept; log 5); D6 (FSZ is 16 bits, wraps and starts at 0; log 8); D24 (sp wraps; log 13). Its bytes
stand as the spec's decisions D2 and D3 (log 10) order them, and `ip` wraps modulo 65536 by its decision D24 (log 12).
-/
def Obligations.PshLitPushesTheLiteral : Prop :=
  ∀ (lit : Word) (s : State),
    encode s.cfg.opc (.pshLit lit) = [s.cfg.opc.pshLit, hi8 lit, lo8 lit] ∧
    fetchAccesses (s.reg .ip) (.pshLit lit) = [fetchAt (s.reg .ip) 0 1, fetchAt (s.reg .ip) 1 2] ∧
    FetchesRaiseAsListed (.pshLit lit) ∧
    ((s.reg .sp).toNat + 1 < s.cfg.memSize → ∃ t, exec (.pshLit lit) s = .next t ∧
      t.mem.byte (s.reg .sp).toNat = hi8 lit ∧ t.mem.byte ((s.reg .sp).toNat + 1) = lo8 lit ∧
      (∀ a, a ≠ (s.reg .sp).toNat → a ≠ (s.reg .sp).toNat + 1 → t.mem.byte a = s.mem.byte a) ∧
      (∀ q, t.reg q = if q = .ip then s.reg .ip + 3 else if q = .sp then s.reg .sp - 2 else s.reg q) ∧
      t.fsz = s.fsz + 2 ∧ SameCfgAndFault s t) ∧
    (s.cfg.memSize ≤ (s.reg .sp).toNat + 1 → ∃ t, exec (.pshLit lit) s = .next t ∧
      t.fault = some { cause := .outOfBounds (s.reg .sp).toNat 2 .write, instrAddr := s.reg .ip,
                       opcode := some s.cfg.opc.pshLit } ∧
      SameBytes s t ∧ (∀ q, t.reg q = if q = .ip then s.reg .ip + 3 else s.reg q) ∧ t.fsz = s.fsz ∧ t.cfg = s.cfg)

/-- spec/44_stack.md section 2 (PSH_REG): with room, the register at `sp`, read before `sp` moves and with `ip` as the
next address; without room, OutOfBoundsMemoryAccess(sp, 2, write). It rests on the spec's decisions D10 (register
operands are read after the fetches, so ip reads as the next address; log 16); D13 (a word is checked whole before any
byte moves; log 11); D16 (a fatal condition is a record in the latch, with the effects made so far kept; log 5); D6
(FSZ is 16 bits, wraps and starts at 0; log 8); D24 (sp wraps; log 13). `ip` wraps modulo 65536 by its decision D24
(log 12). -/
def Obligations.PshRegPushesTheRegister : Prop :=
  ∀ (r : Reg) (s : State),
    ((s.reg .sp).toNat + 1 < s.cfg.memSize → ∃ t, exec (.pshReg r) s = .next t ∧
      t.mem.byte (s.reg .sp).toNat = hi8 (operandValue (.pshReg r) s r) ∧
      t.mem.byte ((s.reg .sp).toNat + 1) = lo8 (operandValue (.pshReg r) s r) ∧
      (∀ a, a ≠ (s.reg .sp).toNat → a ≠ (s.reg .sp).toNat + 1 → t.mem.byte a = s.mem.byte a) ∧
      (∀ q, t.reg q = if q = .ip then s.reg .ip + 2 else if q = .sp then s.reg .sp - 2 else s.reg q) ∧
      t.fsz = s.fsz + 2 ∧ SameCfgAndFault s t) ∧
    (s.cfg.memSize ≤ (s.reg .sp).toNat + 1 → ∃ t, exec (.pshReg r) s = .next t ∧
      t.fault = some { cause := .outOfBounds (s.reg .sp).toNat 2 .write, instrAddr := s.reg .ip,
                       opcode := some s.cfg.opc.pshReg } ∧
      SameBytes s t ∧ (∀ q, t.reg q = if q = .ip then s.reg .ip + 2 else s.reg q) ∧ t.fsz = s.fsz ∧ t.cfg = s.cfg)

/-- spec/44_stack.md, POP: its bytes, its fetches and what they raise; with a word on the stack, the register holds
the word above `sp` (written after `sp` moved up by 2), `FSZ` down by 2 modulo 65536, memory unchanged; otherwise
StackUnderflow(sp + 2) and nothing but `ip` and the latch changes. It rests on the spec's decisions D15 (which pops
raise, and no other stack check; log 13); D16 (a fatal condition is a record in the latch, with the effects made so
far kept; log 5); D6 (FSZ is 16 bits, wraps and starts at 0; log 8). Its bytes stand as the spec's decisions D2 and D3
(log 10) order them, and `ip` wraps modulo 65536 by its decision D24 (log 12). -/
def Obligations.PopReadsTheWordAboveSp : Prop :=
  ∀ (r : Reg) (s : State),
    encode s.cfg.opc (.pop r) = [s.cfg.opc.pop, selectorOf r] ∧
    fetchAccesses (s.reg .ip) (.pop r) = [fetchAt (s.reg .ip) 0 1, fetchAt (s.reg .ip) 1 1] ∧
    FetchesRaiseAsListed (.pop r) ∧
    ((s.reg .sp).toNat + 2 ≤ s.cfg.memSize - 2 → ∃ t, exec (.pop r) s = .next t ∧
      (∀ q, t.reg q =
        if q = r then wordOf (s.mem.byte ((s.reg .sp).toNat + 2)) (s.mem.byte ((s.reg .sp).toNat + 3))
        else if q = .ip then s.reg .ip + 2 else if q = .sp then s.reg .sp + 2 else s.reg q) ∧
      t.fsz = s.fsz - 2 ∧ SameCfgAndFault s t ∧ SameBytes s t) ∧
    (s.cfg.memSize - 2 < (s.reg .sp).toNat + 2 → ∃ t, exec (.pop r) s = .next t ∧
      t.fault = some { cause := .stackUnderflow ((s.reg .sp).toNat + 2), instrAddr := s.reg .ip,
                       opcode := some s.cfg.opc.pop } ∧
      SameBytes s t ∧ (∀ q, t.reg q = if q = .ip then s.reg .ip + 2 else s.reg q) ∧ t.fsz = s.fsz ∧ t.cfg = s.cfg)

/-- spec/45_call_return.md sections 1 and 2, CAL_LIT: its bytes, its fetches and what they raise; with room for the
ten words, `r1`..`r8`, the address after the call and `FSZ + 20` are at `s, s-2, ..., s-18` modulo 65536, `sp = fp = s
- 20`, `FSZ = 0`, `ip` is the target, and nothing else changes; when the `k`-th push is the first without room it
raises there, the words before it stay pushed and `fp` is not updated. That the target is one fetch, so that `ip`
stays at its first byte where only that byte is in range, is the spec's decision D14 (log 12). It rests also on the
spec's decisions D13 (a word is checked whole before any byte moves; log 11); D16 (a fatal condition is a record in
the latch, with the effects made so far kept; log 5); D6 (FSZ is 16 bits, wraps and starts at 0; log 8); D24 (sp
wraps; log 13). Its bytes stand as the spec's decisions D2 and D3 (log 10) order them, and `ip` wraps modulo 65536 by
its decision D24 (log 12). -/
def Obligations.CalLitPushesTheFrameAndJumps : Prop :=
  ∀ (addr : Word) (s : State), s.cfg.wf = true →
    encode s.cfg.opc (.calLit addr) = [s.cfg.opc.calLit, hi8 addr, lo8 addr] ∧
    fetchAccesses (s.reg .ip) (.calLit addr) = [fetchAt (s.reg .ip) 0 1, fetchAt (s.reg .ip) 1 2] ∧
    FetchesRaiseAsListed (.calLit addr) ∧
    ((∀ k, k < 10 → frameSlot s k + 1 < s.cfg.memSize) → ∃ t, exec (.calLit addr) s = .next t ∧
      t.mem.word (frameSlot s 0) = s.reg .r1 ∧ t.mem.word (frameSlot s 1) = s.reg .r2 ∧
      t.mem.word (frameSlot s 2) = s.reg .r3 ∧ t.mem.word (frameSlot s 3) = s.reg .r4 ∧
      t.mem.word (frameSlot s 4) = s.reg .r5 ∧ t.mem.word (frameSlot s 5) = s.reg .r6 ∧
      t.mem.word (frameSlot s 6) = s.reg .r7 ∧ t.mem.word (frameSlot s 7) = s.reg .r8 ∧
      t.mem.word (frameSlot s 8) = s.reg .ip + 3 ∧ t.mem.word (frameSlot s 9) = s.fsz + 20 ∧
      (∀ a, (∀ k, k < 10 → a ≠ frameSlot s k ∧ a ≠ frameSlot s k + 1) → t.mem.byte a = s.mem.byte a) ∧
      (∀ q, t.reg q = if q = .ip then addr else if q = .sp ∨ q = .fp then s.reg .sp - 20 else s.reg q) ∧
      t.fsz = 0 ∧ SameCfgAndFault s t) ∧
    (∀ k, k < 10 → (∀ j, j < k → frameSlot s j + 1 < s.cfg.memSize) → s.cfg.memSize ≤ frameSlot s k + 1 →
      ∃ t, exec (.calLit addr) s = .next t ∧
        t.fault = some { cause := .outOfBounds (frameSlot s k) 2 .write, instrAddr := s.reg .ip,
                         opcode := some s.cfg.opc.calLit } ∧
        (∀ j r, j < k → savedRegs[j]? = some r →
          t.mem.word (frameSlot s j) = operandValue (.calLit addr) s r) ∧
        (∀ a, (∀ j, j < k → a ≠ frameSlot s j ∧ a ≠ frameSlot s j + 1) → t.mem.byte a = s.mem.byte a) ∧
        (∀ q, t.reg q = if q = .ip then s.reg .ip + 3
          else if q = .sp then s.reg .sp - BitVec.ofNat 16 (2 * k) else s.reg q) ∧
        t.fsz = s.fsz + BitVec.ofNat 16 (2 * k) ∧ t.cfg = s.cfg)

/-- spec/45_call_return.md section 2 (CAL_REG): as CAL_LIT with room and without, with the register's value before the
push as target and two bytes of instruction. It rests on the spec's decisions D11 (the target read before the frame
push; log 16); D10 (register operands are read after the fetches, so ip reads as the next address; log 16); D13 (a
word is checked whole before any byte moves; log 11); D16 (a fatal condition is a record in the latch, with the
effects made so far kept; log 5); D6 (FSZ is 16 bits, wraps and starts at 0; log 8); D24 (sp wraps; log 13). `ip`
wraps modulo 65536 by its decision D24 (log 12). -/
def Obligations.CalRegPushesTheFrameAndJumps : Prop :=
  ∀ (r : Reg) (s : State), s.cfg.wf = true →
    ((∀ k, k < 10 → frameSlot s k + 1 < s.cfg.memSize) → ∃ t, exec (.calReg r) s = .next t ∧
      t.mem.word (frameSlot s 0) = s.reg .r1 ∧ t.mem.word (frameSlot s 1) = s.reg .r2 ∧
      t.mem.word (frameSlot s 2) = s.reg .r3 ∧ t.mem.word (frameSlot s 3) = s.reg .r4 ∧
      t.mem.word (frameSlot s 4) = s.reg .r5 ∧ t.mem.word (frameSlot s 5) = s.reg .r6 ∧
      t.mem.word (frameSlot s 6) = s.reg .r7 ∧ t.mem.word (frameSlot s 7) = s.reg .r8 ∧
      t.mem.word (frameSlot s 8) = s.reg .ip + 2 ∧ t.mem.word (frameSlot s 9) = s.fsz + 20 ∧
      (∀ a, (∀ k, k < 10 → a ≠ frameSlot s k ∧ a ≠ frameSlot s k + 1) → t.mem.byte a = s.mem.byte a) ∧
      (∀ q, t.reg q = if q = .ip then operandValue (.calReg r) s r
        else if q = .sp ∨ q = .fp then s.reg .sp - 20 else s.reg q) ∧
      t.fsz = 0 ∧ SameCfgAndFault s t) ∧
    (∀ k, k < 10 → (∀ j, j < k → frameSlot s j + 1 < s.cfg.memSize) → s.cfg.memSize ≤ frameSlot s k + 1 →
      ∃ t, exec (.calReg r) s = .next t ∧
        t.fault = some { cause := .outOfBounds (frameSlot s k) 2 .write, instrAddr := s.reg .ip,
                         opcode := some s.cfg.opc.calReg } ∧
        (∀ j q, j < k → savedRegs[j]? = some q →
          t.mem.word (frameSlot s j) = operandValue (.calReg r) s q) ∧
        (∀ a, (∀ j, j < k → a ≠ frameSlot s j ∧ a ≠ frameSlot s j + 1) → t.mem.byte a = s.mem.byte a) ∧
        (∀ q, t.reg q = if q = .ip then s.reg .ip + 2
          else if q = .sp then s.reg .sp - BitVec.ofNat 16 (2 * k) else s.reg q) ∧
        t.fsz = s.fsz + BitVec.ofNat 16 (2 * k) ∧ t.cfg = s.cfg)

/-- spec/45_call_return.md sections 1 and 2 (RET, PopState): with room for the `11 + n` pops, every register, `FSZ`
and the memory afterwards, from the words found above the old `fp`; when the `k`-th pop is the first without a word it
raises StackUnderflow there: `fp`, `acc` and memory are unchanged, `sp`, `FSZ` and the registers are as the pops
before it left them, and the registers not reached keep their values (`ip` past the instruction). It rests on the
spec's decisions D8 (the count and the arguments taken by Pop; log 14); D7 (the reload of FSZ, an open parameter; log
2); D15 (which pops raise, and no other stack check; log 13); D16 (a fatal condition is a record in the latch, with
the effects made so far kept; log 5); D6 (FSZ is 16 bits, wraps and starts at 0; log 8). -/
def Obligations.RetUnwindsTheFrame : Prop :=
  ∀ s : State, s.cfg.wf = true →
    ((s.reg .fp).toNat + 22 + 2 * returnCount s ≤ s.cfg.memSize - 2 → ∃ t, exec .ret s = .next t ∧
      t.reg .ip = s.mem.word ((s.reg .fp).toNat + 4) ∧ t.reg .r8 = s.mem.word ((s.reg .fp).toNat + 6) ∧
      t.reg .r7 = s.mem.word ((s.reg .fp).toNat + 8) ∧ t.reg .r6 = s.mem.word ((s.reg .fp).toNat + 10) ∧
      t.reg .r5 = s.mem.word ((s.reg .fp).toNat + 12) ∧ t.reg .r4 = s.mem.word ((s.reg .fp).toNat + 14) ∧
      t.reg .r3 = s.mem.word ((s.reg .fp).toNat + 16) ∧ t.reg .r2 = s.mem.word ((s.reg .fp).toNat + 18) ∧
      t.reg .r1 = s.mem.word ((s.reg .fp).toNat + 20) ∧
      (t.reg .sp).toNat = (s.reg .fp).toNat + 22 + 2 * returnCount s ∧
      t.reg .fp = s.reg .fp + s.mem.word ((s.reg .fp).toNat + 2) ∧ t.reg .acc = s.reg .acc ∧
      t.fsz = s.mem.word ((s.reg .fp).toNat + 2) - s.cfg.fszReloadAdj.amount - BitVec.ofNat 16 (20 + 2 * returnCount s) ∧
      SameCfgAndFault s t ∧ SameBytes s t) ∧
    (∀ k, k < 11 + returnCount s → (∀ j, j < k → (s.reg .fp).toNat + 2 * j + 2 ≤ s.cfg.memSize - 2) →
      s.cfg.memSize - 2 < (s.reg .fp).toNat + 2 * k + 2 →
      ∃ t, exec .ret s = .next t ∧
        t.fault = some { cause := .stackUnderflow ((s.reg .fp).toNat + 2 * k + 2), instrAddr := s.reg .ip,
                         opcode := some s.cfg.opc.ret } ∧
        t.reg .fp = s.reg .fp ∧ t.reg .acc = s.reg .acc ∧ SameBytes s t ∧ t.cfg = s.cfg ∧
        t.reg .sp = s.reg .fp + BitVec.ofNat 16 (2 * k) ∧
        t.fsz = (if k = 0 then s.fsz else
          s.mem.word ((s.reg .fp).toNat + 2) - s.cfg.fszReloadAdj.amount - BitVec.ofNat 16 (2 * (k - 1))) ∧
        (∀ j r, j + 1 < k → savedRegs.reverse[j]? = some r → t.reg r = s.mem.word ((s.reg .fp).toNat + 4 + 2 * j)) ∧
        (∀ j r, k ≤ j + 1 → savedRegs.reverse[j]? = some r → t.reg r = operandValue .ret s r))

/-- spec/46_undefined_opcode.md: under the policy the spec fixes, an unknown opcode advances `ip` by 1 and changes
nothing else. It rests on the spec's decision D12 (an unknown opcode is a one-byte no-op; log 4). `ip` wraps modulo
65536 by its decision D24 (log 12). -/
def Obligations.UnknownOpcodeOnlyAdvancesIp : Prop :=
  ∀ (b : Byte) (s : State), s.cfg.unknownOpcode = .nop →
    ∃ t, exec (.unknownOpcode b) s = .next t ∧
      (∀ q, t.reg q = if q = .ip then s.reg .ip + 1 else s.reg q) ∧
      t.fsz = s.fsz ∧ SameCfgAndFault s t ∧ SameBytes s t

/-- spec/46_undefined_opcode.md ("Alternative, not taken"; the model keeps it as a parameter, log 4): under the other
policy the step raises UnknownOpcode with `ip` advanced by 1. It rests on the spec's decision D16 (a fatal condition
is a record in the latch, with the effects made so far kept; log 5). `ip` wraps modulo 65536 by its decision D24 (log
12). -/
def Obligations.UnknownOpcodeRaisesUnderTheOtherPolicy : Prop :=
  ∀ (b : Byte) (s : State), s.cfg.unknownOpcode = .fault →
    ∃ t, exec (.unknownOpcode b) s = .next t ∧
      t.fault = some { cause := .unknownOpcode b, instrAddr := s.reg .ip, opcode := some b } ∧
      (∀ q, t.reg q = if q = .ip then s.reg .ip + 1 else s.reg q) ∧ t.fsz = s.fsz ∧ t.cfg = s.cfg ∧ SameBytes s t

/-! ### All instructions at once -/

/-- spec/60_exceptions.md section 3 with spec/20_memory.md section 10: an instruction raises at the first of its data
accesses, in the listed order, that does not fit, and only then; the record is that access's. (Under the policy for
unknown opcodes that the spec fixes.) Which pops raise is the spec's decision D15 (log 13), the check of a word as a whole
its decision D13 (log 11), the record in the latch its decision D16 (log 5), the no-op of an unknown opcode its decision
D12 (log 4). -/
def Obligations.ExecRaisesExactlyAtTheFirstBadAccess : Prop :=
  ∀ (i : Instr) (s t : State), s.cfg.wf = true → s.cfg.unknownOpcode = .nop → exec i s = .next t →
    t.fault =
      match firstBad s.cfg.memSize (dataAccesses s i) with
      | none => s.fault
      | some x => some { cause := x.condition, instrAddr := s.reg .ip, opcode := some (opcodeOf s.cfg.opc i) }

/-- spec/10_state.md section 1 (registers written), sections 4 and 5 (FSZ), and spec/43_jump.md (the summary of
control transfer): no instruction, faulting or not, writes a register it does not name or write implicitly; only stack
and call instructions change `FSZ`; only a transfer moves `ip` other than past the instruction. It rests on the spec's
decision D16 (a fatal condition is a record in the latch, with the effects made so far kept; log 5). `ip` wraps modulo
65536 by its decision D24 (log 12). -/
def Obligations.InstructionsWriteOnlyTheirRegisters : Prop :=
  ∀ (i : Instr) (s t : State), exec i s = .next t →
    (∀ q, q ∉ writtenRegs i → t.reg q = s.reg q) ∧
    (usesStack i = false → t.fsz = s.fsz) ∧
    (mayTransfer i = false → t.reg .ip = s.reg .ip + BitVec.ofNat 16 (instrLength i)) ∧
    t.cfg = s.cfg

/-- spec/20_memory.md section 10: no instruction, faulting or not, changes a byte outside the write accesses listed
for it; the addresses are those of `dataAccesses`, which an instruction that stores nothing has none of. It rests on
the spec's decision D16 (a fatal condition is a record in the latch, with the effects made so far kept; log 5). -/
def Obligations.InstructionsWriteOnlyTheirBytes : Prop :=
  ∀ (i : Instr) (s t : State) (a : Nat), exec i s = .next t →
    (∀ x ∈ dataAccesses s i, ¬ x.writes a) → t.mem.byte a = s.mem.byte a

/-! ### The stack and the calling protocol -/

/-- R95, the stack balance law. -/
def Obligations.PushThenPopRestoresTheStack : Prop :=
  ∀ (s : State) (v : Word), 2 ≤ (s.reg .sp).toNat → (s.reg .sp).toNat ≤ s.cfg.memSize - 2 →
    ∃ t u, push v s = .ok () t ∧ pop t = .ok v u ∧
      u.reg .sp = s.reg .sp ∧ u.fsz = s.fsz ∧ u.mem.word (s.reg .sp).toNat = v ∧
      (∀ a, a ≠ (s.reg .sp).toNat → a ≠ (s.reg .sp).toNat + 1 → u.mem.byte a = s.mem.byte a) ∧
      (∀ q, u.reg q = s.reg q)

/-- spec/45_call_return.md section 3 (the calling protocol, and the counter after the return for both values of the
open parameter): a call made under the protocol, with the argument count `n` on top of the stack and the frame's bytes
counted by `FSZ`, followed by anything that leaves `fp`, the parameters and the frame's bytes alone, followed by RET:
`r1`..`r8` and `fp` are as at the call, `ip` is the address after the call, `sp` is above the count and the arguments,
`acc` is what the callee left, and `FSZ` is `c - FSZ_RELOAD_ADJ - 2n`. The call's frame is not to wrap below address 0
(`20 ≤ sp`) and the count and the arguments are to be on the stack. It rests on the spec's decisions D8 (the count and
the arguments taken by Pop; log 14); D7 (the reload of FSZ, an open parameter; log 2); D6 (FSZ is 16 bits, wraps and
starts at 0; log 8). -/
def Obligations.CallThenReturnRestoresTheCaller : Prop :=
  ∀ (s t u : State) (i : Instr), s.cfg.wf = true → ((∃ a, i = .calLit a) ∨ ∃ r, i = .calReg r) →
    20 ≤ (s.reg .sp).toNat → s.reg .fp = s.reg .sp + s.fsz →
    (s.reg .sp).toNat + 2 + 2 * (s.mem.word ((s.reg .sp).toNat + 2)).toNat ≤ s.cfg.memSize - 2 →
    exec i s = .next t →
    u.cfg = t.cfg → u.reg .fp = t.reg .fp →
    (∀ a, (s.reg .sp).toNat - 18 ≤ a → a < (s.reg .sp).toNat + 2 → u.mem.byte a = t.mem.byte a) →
    u.mem.word ((s.reg .sp).toNat + 2) = s.mem.word ((s.reg .sp).toNat + 2) →
    ∃ w, exec .ret u = .next w ∧
      (∀ r ∈ [Reg.r1, .r2, .r3, .r4, .r5, .r6, .r7, .r8], w.reg r = s.reg r) ∧
      w.reg .ip = s.reg .ip + BitVec.ofNat 16 (instrLength i) ∧ w.reg .fp = s.reg .fp ∧
      (w.reg .sp).toNat = (s.reg .sp).toNat + 2 + 2 * (s.mem.word ((s.reg .sp).toNat + 2)).toNat ∧
      w.reg .acc = u.reg .acc ∧
      w.fsz = s.fsz - s.cfg.fszReloadAdj.amount - 2 * s.mem.word ((s.reg .sp).toNat + 2) ∧
      w.fault = u.fault ∧ SameBytes u w

/-! ### Reset and the host -/

/-- spec/10_state.md section 6 and spec/70_reset_and_hazards.md section 1 (reset values): construction over a memory
of a size in the domain, with an injective opcode map, gives the reset state over zeroed memory; outside the domain it
is refused by name. It rests on the spec's decisions D4 (the domain of MEM_SIZE; log 1); D5 (zero in ten registers
after reset; log 7); D6 (FSZ is 16 bits, wraps and starts at 0; log 8). The refusal by name is the model's (log 21).
-/
def Obligations.ConstructionGivesTheResetState : Prop :=
  ∀ c : Config,
    (c.wf = true → ∃ t, construct c = .next t ∧ t.cfg = c ∧ (∀ a, t.mem.byte a = 0) ∧ t.fault = none ∧ t.fsz = 0 ∧
      (t.reg .sp).toNat = c.memSize - 2 ∧ (t.reg .fp).toNat = c.memSize - 2 ∧
      ∀ q, q ≠ .sp → q ≠ .fp → t.reg q = 0) ∧
    (c.memSize < 2 ∨ 65536 < c.memSize → construct c = .refused (.memorySizeOutsideDomain c.memSize)) ∧
    (2 ≤ c.memSize → c.memSize ≤ 65536 → c.opc.injective = false → construct c = .refused .opcodeMapNotInjective)

/-- spec/70_reset_and_hazards.md section 1: the host's reset gives every register, `FSZ` and the latch their reset
values and leaves memory and parameters. It rests on the spec's decisions D19 (a reset at any time, memory untouched;
log 9); D5 (zero in ten registers after reset; log 7); D6 (FSZ is 16 bits, wraps and starts at 0; log 8). -/
def Obligations.ResetRestoresAllButMemory : Prop :=
  ∀ s : State, s.cfg.wf = true →
    ∃ t, serve .reset s = (.done, t) ∧ SameBytes s t ∧ t.cfg = s.cfg ∧ t.fault = none ∧ t.fsz = 0 ∧
      (t.reg .sp).toNat = s.cfg.memSize - 2 ∧ (t.reg .fp).toNat = s.cfg.memSize - 2 ∧
      ∀ q, q ≠ .sp → q ≠ .fp → t.reg q = 0

/-- spec/80_host_interface.md sections 3 and 5: HostSetReg writes `v mod 65536` into any of the twelve by name and
changes nothing else, not `FSZ`, not the latch, not memory; HostGetReg reads it back and changes nothing; a name is
one of the twelve or is answered UnknownRegister, with no effect. That an unknown name leaves the whole state, the
latch too, is the spec's decision D18 (log 18). -/
def Obligations.HostRegisterAccessRoundTrips : Prop :=
  (∀ r, hostName (regName r) = .known r) ∧
  (∀ name, (∀ r, regName r ≠ name) → hostName name = .invalid name) ∧
  (∀ (s : State) (r : Reg) (v : Nat), ∃ t w, serve (.setReg (.known r) v) s = (.done, t) ∧
    serve (.getReg (.known r)) t = (.word w, t) ∧ w.toNat = v % 65536 ∧
    (∀ q, q ≠ r → t.reg q = s.reg q) ∧ t.fsz = s.fsz ∧ SameCfgAndFault s t ∧ SameBytes s t) ∧
  (∀ (s : State) (r : Reg), serve (.getReg (.known r)) s = (.word (s.reg r), s)) ∧
  (∀ (s : State) (name : String) (v : Nat),
    serve (.getReg (.invalid name)) s = (.condition (.unknownRegister name), s) ∧
    serve (.setReg (.invalid name) v) s = (.condition (.unknownRegister name), s))

/-- R166 and R167: the host reads what `MemRead` reads, with no effect, and writes what `MemWrite` writes, the value
reduced modulo 256 or 65536, and only the bytes addressed. -/
def Obligations.HostMemoryAccessIsTheMachines : Prop :=
  ∀ (s : State) (a v : Nat),
    (a < s.cfg.memSize → serve (.readByte a) s = (.byte (s.mem.byte a), s) ∧
      ∃ t, serve (.writeByte a v) s = (.done, t) ∧
        (∀ b, (t.mem.byte b).toNat = if b = a then v % 256 else (s.mem.byte b).toNat) ∧
        (∀ q, t.reg q = s.reg q) ∧ t.fsz = s.fsz ∧ SameCfgAndFault s t) ∧
    (a + 1 < s.cfg.memSize → serve (.readWord a) s = (.word (wordOf (s.mem.byte a) (s.mem.byte (a + 1))), s) ∧
      ∃ t, serve (.writeWord a v) s = (.done, t) ∧
        (∀ b, (t.mem.byte b).toNat = if b = a then v / 256 % 256 else if b = a + 1 then v % 256
          else (s.mem.byte b).toNat) ∧
        (∀ q, t.reg q = s.reg q) ∧ t.fsz = s.fsz ∧ SameCfgAndFault s t)

/-- spec/80_host_interface.md section 5: a host access out of range is answered OutOfBoundsMemoryAccess and changes no
state. It rests on the spec's decisions D18 (a refused request changes nothing; log 18); D13 (a word is checked whole
before any byte moves; log 11). -/
def Obligations.FailedHostAccessChangesNothing : Prop :=
  ∀ (s : State) (a v : Nat),
    (s.cfg.memSize ≤ a →
      serve (.readByte a) s = (.condition (.outOfBounds a 1 .read), s) ∧
      serve (.writeByte a v) s = (.condition (.outOfBounds a 1 .write), s)) ∧
    (s.cfg.memSize ≤ a + 1 →
      serve (.readWord a) s = (.condition (.outOfBounds a 2 .read), s) ∧
      serve (.writeWord a v) s = (.condition (.outOfBounds a 2 .write), s))

/-- spec/10_state.md section 5 and spec/80_host_interface.md section 7: the host reaches `FSZ` by no request but reset and
step: no other request changes it, and no answer depends on it. -/
def Obligations.HostCannotReachTheFrameCounter : Prop :=
  ∀ (q : HostRequest) (s : State) (v : Word), q ≠ .step →
    (serve q (s.setFsz v)).1 = (serve q s).1 ∧ (q ≠ .reset → (serve q s).2.fsz = s.fsz) ∧
    ∀ r, (serve q (s.setFsz v)).2.reg r = (serve q s).2.reg r

/-- spec/10_state.md section 5 (the parameters are fixed for the life of the machine): no sequence of requests, steps
among them, changes a parameter. -/
def Obligations.ParametersNeverChange : Prop :=
  ∀ (qs : List HostRequest) (s : State), (serveAll qs s).cfg = s.cfg

/-- The model's placing of a table word (log 19; spec/80_host_interface.md section 4): on a running machine with five
bytes of room at `ip`, the next step runs exactly the instruction the word decodes to. -/
def Obligations.FetchWordIsRunNext : Prop :=
  ∀ (s : State) (nbits w : Nat) (i : Instr) (rest : List Byte), s.cfg.wf = true → s.fault = none →
    (s.reg .ip).toNat + 5 ≤ s.cfg.memSize → decode s.cfg.opc (tableBytes nbits w) = .ok (i, rest) →
    step (s.withFetchWord nbits w) = exec i (s.withFetchWord nbits w)

/-! ### The end of a run -/

/-- spec/70_reset_and_hazards.md section 3 (the end of a run; the form of the convention is the model's, log 26): a
run takes steps one by one and ends at the first state that has halted or meets the convention, or at the host's
budget if no state before it does; it is a success only in a state that has not halted. It rests on the spec's
decision D26 (the end of a run is a convention; log 26). -/
def Obligations.RunEndsAtTheFirstFaultOrMetRule : Prop :=
  ∀ (rule : EndRule) (budget : Nat) (s : State),
    (∃ j, j ≤ budget ∧
      (∀ i, i < j → (stepMany i s).fault = none ∧ rule.met i (stepMany i s) = false) ∧
      run rule budget s =
        (if (stepMany j s).fault ≠ none then .halted (stepMany j s)
          else if rule.met j (stepMany j s) then .success (stepMany j s) else .stopped (stepMany j s)) ∧
      ((stepMany j s).fault = none → rule.met j (stepMany j s) = false → j = budget)) ∧
    ∀ t, run rule budget s = .success t → t.fault = none

/-- spec/70_reset_and_hazards.md section 3 and spec/60_exceptions.md section 2 (the form of the convention is the model's,
log 26; that a halted machine stays halted is the spec's decision D16, log 5): with the convention "after exactly k steps"
and a budget that allows them, the run ends in the state after k step requests, a success unless that state has halted. -/
def Obligations.RunOfExactlyKSteps : Prop :=
  ∀ (k budget : Nat) (s : State), k ≤ budget →
    run (.afterSteps k) budget s =
      if (stepMany k s).fault = none then .success (stepMany k s) else .halted (stepMany k s)

/-! ### The invariant -/

/-- The state after reset meets the invariant; it rests on the model's choice of parameters (logs 1 to 4). -/
def Obligations.ResetMeetsTheInvariant : Prop :=
  State.reset.inv = true

/-- Every step keeps the invariant: parameters in their domain, memory canonical and inside `MEM_SIZE`, a latched
record one that spec/60_exceptions.md sections 1 and 2 allow. The latch and the underflow check are the spec's
decisions D16 and D15 (logs 5 and 13). It rests also on the spec's decision D13 (a word is checked whole before any
byte moves; log 11). -/
def Obligations.StepKeepsTheInvariant : Prop :=
  ∀ s t : State, s.inv = true → step s = .next t → t.inv = true

/-- Every session of host requests on a constructed machine keeps the invariant (spec/80_host_interface.md). It rests
on the spec's decisions D16 (a fatal condition is a record in the latch, with the effects made so far kept; log 5);
D18 (a refused request changes nothing; log 18); D19 (a reset at any time, memory untouched; log 9). -/
def Obligations.EverySessionKeepsTheInvariant : Prop :=
  (∀ (qs : List HostRequest) (s : State), s.inv = true → (serveAll qs s).inv = true) ∧
  ∀ (c : Config) (t : State) (qs : List HostRequest), construct c = .next t → (serveAll qs t).inv = true
end

