-- ==== Sys2Proof/Laws/Decode.lean ====
section
/-! SUPPORT. The opcode table under an injective map, and canonical selectors. -/

namespace Sys2Proof

open Machine

/-- A register's canonical selector byte selects it (spec/30_encoding.md R54, R60). -/
@[simp] theorem regOfSelector_selectorOf (r : Reg) : regOfSelector (selectorOf r) = r := by cases r <;> decide

/-- Every instruction a layout builds has the opcode byte `b`. -/
def Layout.HasOpcode (o : Opc) (b : Byte) : Layout → Prop
  | .f0 i => opcodeOf o i = b
  | .fr mk => ∀ a, opcodeOf o (mk a) = b
  | .frr mk => ∀ a c, opcodeOf o (mk a c) = b
  | .fi mk => ∀ w, opcodeOf o (mk w) = b
  | .fir mk => ∀ w a, opcodeOf o (mk w a) = b
  | .fri mk => ∀ a w, opcodeOf o (mk a w) = b
  | .fii mk => ∀ v w, opcodeOf o (mk v w) = b

theorem hasOpcode_ite {o : Opc} {b : Byte} {c : Prop} [Decidable c] {x y : Layout} (hx : c → x.HasOpcode o b)
    (hy : y.HasOpcode o b) : (if c then x else y).HasOpcode o b := by
  split_ifs with h
  · exact hx h
  · exact hy

/-- The instruction a layout builds has the opcode byte the layout was looked up with (R57). -/
theorem layoutOf_hasOpcode (o : Opc) (b : Byte) : (layoutOf o b).HasOpcode o b := by
  unfold layoutOf
  refine hasOpcode_ite (fun h _ _ => h.symm) ?_ -- movLitReg
  refine hasOpcode_ite (fun h _ _ => h.symm) ?_ -- movRegReg
  refine hasOpcode_ite (fun h _ _ => h.symm) ?_ -- movRegMem
  refine hasOpcode_ite (fun h _ _ => h.symm) ?_ -- movMemReg
  refine hasOpcode_ite (fun h _ _ => h.symm) ?_ -- addRegReg
  refine hasOpcode_ite (fun h _ _ => h.symm) ?_ -- jmpNotEq
  refine hasOpcode_ite (fun h _ => h.symm) ?_ -- pshLit
  refine hasOpcode_ite (fun h _ => h.symm) ?_ -- pshReg
  refine hasOpcode_ite (fun h _ => h.symm) ?_ -- pop
  refine hasOpcode_ite (fun h _ => h.symm) ?_ -- calLit
  refine hasOpcode_ite (fun h _ => h.symm) ?_ -- calReg
  refine hasOpcode_ite (fun h => h.symm) ?_ -- ret
  exact rfl

/-- Two places of an injective map hold different bytes (R62). -/
theorem Opc.bytes_ne {o : Opc} (h : o.injective = true) (i j : Fin 12) (hij : i ≠ j) : o.bytes.get i ≠ o.bytes.get j := by
  have hn : o.bytes.Nodup := by simpa [Opc.injective] using h
  exact fun e => hij (hn.injective_get e)

/-- A branch of the table that another byte takes is passed over. -/
theorem layout_skip {c : Prop} [Decidable c] {x y z : Layout} (hc : ¬ c) (e : y = z) : (if c then x else y) = z :=
  (if_neg hc).trans e

section
variable {o : Opc} (h : o.injective = true)
include h

theorem layoutOf_movRegReg : layoutOf o o.movRegReg = .frr .movRegReg :=
  layout_skip (Opc.bytes_ne h 1 0 (by decide)) <| if_pos rfl
theorem layoutOf_movRegMem : layoutOf o o.movRegMem = .fri .movRegMem :=
  layout_skip (Opc.bytes_ne h 2 0 (by decide)) <| layout_skip (Opc.bytes_ne h 2 1 (by decide)) <| if_pos rfl
theorem layoutOf_movMemReg : layoutOf o o.movMemReg = .fir .movMemReg :=
  layout_skip (Opc.bytes_ne h 3 0 (by decide)) <| layout_skip (Opc.bytes_ne h 3 1 (by decide)) <|
  layout_skip (Opc.bytes_ne h 3 2 (by decide)) <| if_pos rfl
theorem layoutOf_addRegReg : layoutOf o o.addRegReg = .frr .addRegReg :=
  layout_skip (Opc.bytes_ne h 4 0 (by decide)) <| layout_skip (Opc.bytes_ne h 4 1 (by decide)) <|
  layout_skip (Opc.bytes_ne h 4 2 (by decide)) <| layout_skip (Opc.bytes_ne h 4 3 (by decide)) <| if_pos rfl
theorem layoutOf_jmpNotEq : layoutOf o o.jmpNotEq = .fii .jmpNotEq :=
  layout_skip (Opc.bytes_ne h 5 0 (by decide)) <| layout_skip (Opc.bytes_ne h 5 1 (by decide)) <|
  layout_skip (Opc.bytes_ne h 5 2 (by decide)) <| layout_skip (Opc.bytes_ne h 5 3 (by decide)) <|
  layout_skip (Opc.bytes_ne h 5 4 (by decide)) <| if_pos rfl
theorem layoutOf_pshLit : layoutOf o o.pshLit = .fi .pshLit :=
  layout_skip (Opc.bytes_ne h 6 0 (by decide)) <| layout_skip (Opc.bytes_ne h 6 1 (by decide)) <|
  layout_skip (Opc.bytes_ne h 6 2 (by decide)) <| layout_skip (Opc.bytes_ne h 6 3 (by decide)) <|
  layout_skip (Opc.bytes_ne h 6 4 (by decide)) <| layout_skip (Opc.bytes_ne h 6 5 (by decide)) <| if_pos rfl
theorem layoutOf_pshReg : layoutOf o o.pshReg = .fr .pshReg :=
  layout_skip (Opc.bytes_ne h 7 0 (by decide)) <| layout_skip (Opc.bytes_ne h 7 1 (by decide)) <|
  layout_skip (Opc.bytes_ne h 7 2 (by decide)) <| layout_skip (Opc.bytes_ne h 7 3 (by decide)) <|
  layout_skip (Opc.bytes_ne h 7 4 (by decide)) <| layout_skip (Opc.bytes_ne h 7 5 (by decide)) <|
  layout_skip (Opc.bytes_ne h 7 6 (by decide)) <| if_pos rfl
theorem layoutOf_pop : layoutOf o o.pop = .fr .pop :=
  layout_skip (Opc.bytes_ne h 8 0 (by decide)) <| layout_skip (Opc.bytes_ne h 8 1 (by decide)) <|
  layout_skip (Opc.bytes_ne h 8 2 (by decide)) <| layout_skip (Opc.bytes_ne h 8 3 (by decide)) <|
  layout_skip (Opc.bytes_ne h 8 4 (by decide)) <| layout_skip (Opc.bytes_ne h 8 5 (by decide)) <|
  layout_skip (Opc.bytes_ne h 8 6 (by decide)) <| layout_skip (Opc.bytes_ne h 8 7 (by decide)) <| if_pos rfl
theorem layoutOf_calLit : layoutOf o o.calLit = .fi .calLit :=
  layout_skip (Opc.bytes_ne h 9 0 (by decide)) <| layout_skip (Opc.bytes_ne h 9 1 (by decide)) <|
  layout_skip (Opc.bytes_ne h 9 2 (by decide)) <| layout_skip (Opc.bytes_ne h 9 3 (by decide)) <|
  layout_skip (Opc.bytes_ne h 9 4 (by decide)) <| layout_skip (Opc.bytes_ne h 9 5 (by decide)) <|
  layout_skip (Opc.bytes_ne h 9 6 (by decide)) <| layout_skip (Opc.bytes_ne h 9 7 (by decide)) <|
  layout_skip (Opc.bytes_ne h 9 8 (by decide)) <| if_pos rfl
theorem layoutOf_calReg : layoutOf o o.calReg = .fr .calReg :=
  layout_skip (Opc.bytes_ne h 10 0 (by decide)) <| layout_skip (Opc.bytes_ne h 10 1 (by decide)) <|
  layout_skip (Opc.bytes_ne h 10 2 (by decide)) <| layout_skip (Opc.bytes_ne h 10 3 (by decide)) <|
  layout_skip (Opc.bytes_ne h 10 4 (by decide)) <| layout_skip (Opc.bytes_ne h 10 5 (by decide)) <|
  layout_skip (Opc.bytes_ne h 10 6 (by decide)) <| layout_skip (Opc.bytes_ne h 10 7 (by decide)) <|
  layout_skip (Opc.bytes_ne h 10 8 (by decide)) <| layout_skip (Opc.bytes_ne h 10 9 (by decide)) <| if_pos rfl
theorem layoutOf_ret : layoutOf o o.ret = .f0 .ret :=
  layout_skip (Opc.bytes_ne h 11 0 (by decide)) <| layout_skip (Opc.bytes_ne h 11 1 (by decide)) <|
  layout_skip (Opc.bytes_ne h 11 2 (by decide)) <| layout_skip (Opc.bytes_ne h 11 3 (by decide)) <|
  layout_skip (Opc.bytes_ne h 11 4 (by decide)) <| layout_skip (Opc.bytes_ne h 11 5 (by decide)) <|
  layout_skip (Opc.bytes_ne h 11 6 (by decide)) <| layout_skip (Opc.bytes_ne h 11 7 (by decide)) <|
  layout_skip (Opc.bytes_ne h 11 8 (by decide)) <| layout_skip (Opc.bytes_ne h 11 9 (by decide)) <|
  layout_skip (Opc.bytes_ne h 11 10 (by decide)) <| if_pos rfl

end

theorem layoutOf_movLitReg (o : Opc) : layoutOf o o.movLitReg = .fir .movLitReg := if_pos rfl

/-- A byte outside the map is an unknown opcode (R58). -/
theorem layoutOf_unknown {o : Opc} {b : Byte} (h : o.knows b = false) : layoutOf o b = .f0 (.unknownOpcode b) := by
  have hn : ∀ c ∈ o.bytes, b ≠ c := by
    intro c hc hbc
    subst hbc
    simp [Opc.knows, hc] at h
  simp only [Opc.bytes, List.forall_mem_cons] at hn
  obtain ⟨h0, h1, h2, h3, h4, h5, h6, h7, h8, h9, h10, h11, -⟩ := hn
  simp only [layoutOf, h0, h1, h2, h3, h4, h5, h6, h7, h8, h9, h10, h11, if_false]

end Sys2Proof
end

