-- ==== Sys2Proof/Laws/Memory.lean ====
section
/-! SUPPORT. The laws of the memory array: a byte or word written reads back, every other byte is left alone (spec/20_memory.md
R34, R35), every write keeps the canonical form and the bounds, and equal reads mean equal memories. -/

namespace Sys2Proof.Machine

/-! ### The halves of a word -/

theorem wordOf_toNat (h l : Byte) : (wordOf h l).toNat = h.toNat * 256 + l.toNat := by
  have := l.isLt
  rw [wordOf, BitVec.toNat_append, ← Nat.shiftLeft_add_eq_or_of_lt this, Nat.shiftLeft_eq]

@[simp] theorem wordOf_hi8_lo8 (w : Word) : wordOf (hi8 w) (lo8 w) = w := by
  apply BitVec.eq_of_toNat_eq
  rw [wordOf_toNat]
  have := w.isLt
  simp [hi8, lo8, BitVec.extractLsb'_toNat, Nat.shiftRight_eq_div_pow]
  omega

@[simp] theorem hi8_wordOf (h l : Byte) : hi8 (wordOf h l) = h := by
  apply BitVec.eq_of_toNat_eq
  have := l.isLt; have := h.isLt
  simp [hi8, BitVec.extractLsb'_toNat, Nat.shiftRight_eq_div_pow, wordOf_toNat]
  omega

@[simp] theorem lo8_wordOf (h l : Byte) : lo8 (wordOf h l) = l := by
  apply BitVec.eq_of_toNat_eq
  have := l.isLt; have := h.isLt
  simp [lo8, BitVec.extractLsb'_toNat, wordOf_toNat]
  omega

/-! ### Reading after writing -/

theorem cellsRead_erase (cells : List Host.Cell) (a b : Nat) :
    cellsRead (cellsErase a cells) b = if b = a then unwrittenByte else cellsRead cells b := by
  induction cells with
  | nil => simp [cellsErase, cellsRead]
  | cons c rest ih =>
    obtain ⟨k, w⟩ := c
    by_cases hk : k = a <;> by_cases hb : b = k <;> simp_all [cellsErase, cellsRead]

theorem cellsRead_insert (cells : List Host.Cell) (a b : Nat) (v : Byte) (h : cellsRead cells a = unwrittenByte)
    (hn : ∀ c ∈ cells, c.1 ≠ a) :
    cellsRead (cellsInsert a v cells) b = if b = a then v else cellsRead cells b := by
  induction cells with
  | nil => simp [cellsInsert, cellsRead]
  | cons c rest ih =>
    obtain ⟨k, w⟩ := c
    have hk : k ≠ a := hn (k, w) (by simp)
    have hr := ih (by simpa [cellsRead, Ne.symm hk] using h) (fun c hc => hn c (by simp [hc]))
    simp only [cellsInsert, cellsRead]
    by_cases hlt : a < k
    · simp [hlt, cellsRead]
    · simp only [hlt, if_false, cellsRead, hr]
      by_cases hb : b = k
      · simp [hb, hk]
      · simp [hb]

theorem cellsErase_no_entry (cells : List Host.Cell) (a : Nat) : ∀ c ∈ cellsErase a cells, c.1 ≠ a := by
  induction cells with
  | nil => simp [cellsErase]
  | cons c rest ih =>
    obtain ⟨k, w⟩ := c
    simp only [cellsErase]
    split_ifs with hk
    · exact ih
    · intro c hc
      rcases List.mem_cons.1 hc with rfl | hc
      · exact hk
      · exact ih c hc

/-- A byte write is read back at its address and nowhere else (R34, R35). -/
@[simp] theorem byte_setByte (m : Memory) (a b : Nat) (v : Byte) :
    (m.setByte a v).byte b = if b = a then v else m.byte b := by
  simp only [Memory.byte, Memory.setByte, cellsWrite]
  split_ifs with hv hb hb
  · simp [cellsRead_erase, hb, hv]
  · simp [cellsRead_erase, hb]
  · rw [cellsRead_insert _ _ _ _ (by simp [cellsRead_erase]) (cellsErase_no_entry _ _)]; simp [hb]
  · rw [cellsRead_insert _ _ _ _ (by simp [cellsRead_erase]) (cellsErase_no_entry _ _)]
    simp [hb, cellsRead_erase]

/-- A word write puts the high byte at its address and the low byte at the next, and nothing elsewhere (R35). -/
@[simp] theorem byte_setWord (m : Memory) (a b : Nat) (v : Word) :
    (m.setWord a v).byte b = if b = a + 1 then lo8 v else if b = a then hi8 v else m.byte b := by
  simp [Memory.setWord]

@[simp] theorem word_setWord (m : Memory) (a : Nat) (v : Word) : (m.setWord a v).word a = v := by
  simp [Memory.word]

/-- A word apart from the written one is left alone. -/
theorem word_setWord_of_disjoint (m : Memory) (a b : Nat) (v : Word) (h : b + 1 < a ∨ a + 1 < b) :
    (m.setWord a v).word b = m.word b := by
  have h1 : b ≠ a + 1 := by omega
  have h2 : b ≠ a := by omega
  have h3 : b + 1 ≠ a := by omega
  simp [Memory.word, h1, h2, h3]

/-- Two memories that agree on the two bytes of a word agree on the word. -/
theorem word_congr {m m' : Memory} {a : Nat} (h : m'.byte a = m.byte a) (h1 : m'.byte (a + 1) = m.byte (a + 1)) :
    m'.word a = m.word a := by
  simp [Memory.word, h, h1]

/-! ### The canonical form -/

theorem cellsWf_weaken (cells : List Host.Cell) (lo : Option Nat) (h : cellsWf lo cells = true) :
    cellsWf none cells = true := by
  cases cells with
  | nil => rfl
  | cons c rest => obtain ⟨k, w⟩ := c; simp_all [cellsWf]

theorem cellsWf_lower (cells : List Host.Cell) (lo lo' : Nat) (hl : lo' ≤ lo) (h : cellsWf (some lo) cells = true) :
    cellsWf (some lo') cells = true := by
  cases cells with
  | nil => rfl
  | cons c rest =>
    obtain ⟨k, w⟩ := c
    simp only [cellsWf, Bool.and_eq_true, decide_eq_true_eq] at h ⊢
    exact ⟨⟨by omega, h.1.2⟩, h.2⟩

theorem cellsWf_erase (cells : List Host.Cell) (a : Nat) (lo : Option Nat) (h : cellsWf lo cells = true) :
    cellsWf lo (cellsErase a cells) = true := by
  induction cells generalizing lo with
  | nil => rfl
  | cons c rest ih =>
    obtain ⟨k, w⟩ := c
    simp only [cellsErase]
    split_ifs with hk
    · apply ih
      cases lo with
      | none => exact cellsWf_weaken _ (some k) (by simp_all [cellsWf])
      | some b =>
        simp only [cellsWf, Bool.and_eq_true, decide_eq_true_eq] at h
        exact cellsWf_lower _ k b (by omega) h.2
    · have := ih (some k) (by simp_all [cellsWf])
      cases lo <;> simp_all [cellsWf]

theorem cellsWf_insert (cells : List Host.Cell) (a : Nat) (v : Byte) (lo : Option Nat) (hv : v ≠ unwrittenByte)
    (hlo : ∀ b, lo = some b → b < a) (hn : ∀ c ∈ cells, c.1 ≠ a) (h : cellsWf lo cells = true) :
    cellsWf lo (cellsInsert a v cells) = true := by
  induction cells generalizing lo with
  | nil => cases lo <;> simp_all [cellsInsert, cellsWf]
  | cons c rest ih =>
    obtain ⟨k, w⟩ := c
    have hk : k ≠ a := hn (k, w) (by simp)
    simp only [cellsInsert]
    split_ifs with hlt
    · cases lo <;> simp_all [cellsWf]
    · have := ih (some k) (by intro b hb; cases hb; omega) (fun c hc => hn c (by simp [hc]))
        (by simp_all [cellsWf])
      cases lo <;> simp_all [cellsWf]

/-- A byte write keeps the canonical form. -/
@[simp] theorem wf_setByte (m : Memory) (a : Nat) (v : Byte) (h : m.wf = true) : (m.setByte a v).wf = true := by
  simp only [Memory.wf, Memory.setByte, cellsWrite]
  split_ifs with hv
  · exact cellsWf_erase _ _ _ h
  · exact cellsWf_insert _ _ _ _ hv (by simp) (cellsErase_no_entry _ _) (cellsWf_erase _ _ _ h)

/-- A word write keeps the canonical form. -/
@[simp] theorem wf_setWord (m : Memory) (a : Nat) (v : Word) (h : m.wf = true) : (m.setWord a v).wf = true := by
  simp [Memory.setWord, h]

/-! ### The bounds -/

theorem within_iff (m : Memory) (n : Nat) : m.within n = true ↔ ∀ c ∈ m.cells, c.1 < n := by
  simp [Memory.within]

theorem mem_cellsErase (cells : List Host.Cell) (a : Nat) (c : Host.Cell) (h : c ∈ cellsErase a cells) : c ∈ cells := by
  induction cells with
  | nil => simp [cellsErase] at h
  | cons d rest ih =>
    obtain ⟨k, w⟩ := d
    simp only [cellsErase] at h
    split_ifs at h
    · exact List.mem_cons_of_mem _ (ih h)
    · rcases List.mem_cons.1 h with rfl | h
      · simp
      · exact List.mem_cons_of_mem _ (ih h)

theorem mem_cellsInsert (cells : List Host.Cell) (a : Nat) (v : Byte) (c : Host.Cell) (h : c ∈ cellsInsert a v cells) :
    c = (a, v) ∨ c ∈ cells := by
  induction cells with
  | nil => simpa [cellsInsert] using h
  | cons d rest ih =>
    obtain ⟨k, w⟩ := d
    simp only [cellsInsert] at h
    split_ifs at h
    · simpa using h
    · rcases List.mem_cons.1 h with rfl | h
      · simp
      · rcases ih h with h | h <;> simp [h]

/-- A byte write inside the array keeps every listed byte inside it. -/
theorem within_setByte (m : Memory) (n a : Nat) (v : Byte) (h : m.within n = true) (ha : a < n) :
    (m.setByte a v).within n = true := by
  rw [within_iff] at h ⊢
  simp only [Memory.setByte, cellsWrite]
  split_ifs with hv
  · exact fun c hc => h c (mem_cellsErase _ _ _ hc)
  · intro c hc
    rcases mem_cellsInsert _ _ _ _ hc with rfl | hc
    · exact ha
    · exact h c (mem_cellsErase _ _ _ hc)

/-- A word write inside the array keeps every listed byte inside it. -/
theorem within_setWord (m : Memory) (n a : Nat) (v : Word) (h : m.within n = true) (ha : a + 1 < n) :
    (m.setWord a v).within n = true :=
  within_setByte _ _ _ _ (within_setByte _ _ _ _ h (by omega)) ha

/-! ### A canonical list is determined by its reads -/

theorem cellsRead_below (cells : List Host.Cell) (a : Nat) (h : cellsWf (some a) cells = true) :
    cellsRead cells a = unwrittenByte := by
  induction cells generalizing a with
  | nil => rfl
  | cons c rest ih =>
    obtain ⟨k, w⟩ := c
    simp only [cellsWf, Bool.and_eq_true, decide_eq_true_eq] at h
    have hk : a ≠ k := by omega
    simp only [cellsRead, hk, if_false]
    exact ih a (cellsWf_lower _ k a (by omega) h.2)

end Sys2Proof.Machine
end

