-- ==== Sys2Proof/Laws/State.lean ====
section
/-! SUPPORT. One lemma per field per update of `State`, so that no proof unfolds a record update. -/

namespace Sys2Proof.Machine

variable (s : State)

/-! ### Writing a register -/

@[simp] theorem setReg_reg (r q : Reg) (v : Word) : (s.setReg r v).reg q = if q = r then v else s.reg q := by
  cases r <;> cases q <;> rfl
@[simp] theorem setReg_cfg (r : Reg) (v : Word) : (s.setReg r v).cfg = s.cfg := by cases r <;> rfl
@[simp] theorem setReg_fsz (r : Reg) (v : Word) : (s.setReg r v).fsz = s.fsz := by cases r <;> rfl
@[simp] theorem setReg_fault (r : Reg) (v : Word) : (s.setReg r v).fault = s.fault := by cases r <;> rfl
@[simp] theorem setReg_mem (r : Reg) (v : Word) : (s.setReg r v).mem = s.mem := by cases r <;> rfl

/-! ### Writing the frame-size counter -/

@[simp] theorem setFsz_reg (v : Word) (q : Reg) : (s.setFsz v).reg q = s.reg q := by cases q <;> rfl
@[simp] theorem setFsz_cfg (v : Word) : (s.setFsz v).cfg = s.cfg := rfl
@[simp] theorem setFsz_fsz (v : Word) : (s.setFsz v).fsz = v := rfl
@[simp] theorem setFsz_fault (v : Word) : (s.setFsz v).fault = s.fault := rfl
@[simp] theorem setFsz_mem (v : Word) : (s.setFsz v).mem = s.mem := rfl

/-! ### Writing the memory -/

@[simp] theorem setMem_reg (m : Memory) (q : Reg) : (s.setMem m).reg q = s.reg q := by cases q <;> rfl
@[simp] theorem setMem_cfg (m : Memory) : (s.setMem m).cfg = s.cfg := rfl
@[simp] theorem setMem_fsz (m : Memory) : (s.setMem m).fsz = s.fsz := rfl
@[simp] theorem setMem_fault (m : Memory) : (s.setMem m).fault = s.fault := rfl
@[simp] theorem setMem_mem (m : Memory) : (s.setMem m).mem = m := rfl

/-! ### Writing the fault latch -/

@[simp] theorem setFault_reg (f : Option FaultRecord) (q : Reg) : (s.setFault f).reg q = s.reg q := by cases q <;> rfl
@[simp] theorem setFault_cfg (f : Option FaultRecord) : (s.setFault f).cfg = s.cfg := rfl
@[simp] theorem setFault_fsz (f : Option FaultRecord) : (s.setFault f).fsz = s.fsz := rfl
@[simp] theorem setFault_fault (f : Option FaultRecord) : (s.setFault f).fault = f := rfl
@[simp] theorem setFault_mem (f : Option FaultRecord) : (s.setFault f).mem = s.mem := rfl

/-! ### A raise writes the latch and nothing else (spec/60_exceptions.md R125) -/

@[simp] theorem raise_reg (f : Fault) (a : Word) (op : Option Byte) (q : Reg) : (raise f a op s).reg q = s.reg q := by
  cases q <;> rfl
@[simp] theorem raise_cfg (f : Fault) (a : Word) (op : Option Byte) : (raise f a op s).cfg = s.cfg := rfl
@[simp] theorem raise_fsz (f : Fault) (a : Word) (op : Option Byte) : (raise f a op s).fsz = s.fsz := rfl
@[simp] theorem raise_fault (f : Fault) (a : Word) (op : Option Byte) :
    (raise f a op s).fault = some { cause := f, instrAddr := a, opcode := op } := rfl
@[simp] theorem raise_mem (f : Fault) (a : Word) (op : Option Byte) : (raise f a op s).mem = s.mem := rfl

/-! ### Advancing `ip` (spec/10_state.md R14) -/

@[simp] theorem advanceIp_reg (n : Nat) (q : Reg) :
    (advanceIp n s).reg q = if q = .ip then s.reg .ip + BitVec.ofNat 16 n else s.reg q := by simp [advanceIp]
@[simp] theorem advanceIp_cfg (n : Nat) : (advanceIp n s).cfg = s.cfg := by simp [advanceIp]
@[simp] theorem advanceIp_fsz (n : Nat) : (advanceIp n s).fsz = s.fsz := by simp [advanceIp]
@[simp] theorem advanceIp_fault (n : Nat) : (advanceIp n s).fault = s.fault := by simp [advanceIp]
@[simp] theorem advanceIp_mem (n : Nat) : (advanceIp n s).mem = s.mem := by simp [advanceIp]

/-! ### Writing one register again -/

theorem setReg_setReg (s : State) (r : Reg) (v w : Word) : (s.setReg r v).setReg r w = s.setReg r w := by cases r <;> rfl
theorem setReg_self (s : State) (r : Reg) : s.setReg r (s.reg r) = s := by cases r <;> rfl

/-! ### Two states are equal when their fields and their twelve registers are -/

theorem state_ext {s t : State} (hc : t.cfg = s.cfg) (hr : ∀ r, t.reg r = s.reg r) (hz : t.fsz = s.fsz)
    (hf : t.fault = s.fault) (hm : t.mem = s.mem) : t = s := by
  obtain ⟨c, ⟨⟩, z, f, m⟩ := s
  obtain ⟨c', ⟨⟩, z', f', m'⟩ := t
  have h0 := hr .ip; have h1 := hr .acc; have h2 := hr .r1; have h3 := hr .r2
  have h4 := hr .r3; have h5 := hr .r4; have h6 := hr .r5; have h7 := hr .r6
  have h8 := hr .r7; have h9 := hr .r8; have h10 := hr .sp; have h11 := hr .fp
  simp only [State.reg] at h0 h1 h2 h3 h4 h5 h6 h7 h8 h9 h10 h11
  simp_all

end Sys2Proof.Machine
end

