-- ==== Sys2Proof/Laws/Ops.lean ====
section
/-! SUPPORT. For each shared operation, one lemma that says everything it can do: its equation, or what holds of the state
where it ends normally and where it raises. -/

namespace Sys2Proof.Machine

/-! ### Blocks -/

/-- A block runs its first statement; a raise there ends it with the state as it stands (spec/60_exceptions.md R126). -/
theorem op_bind {α β : Type} (x : Op α) (f : α → Op β) (s : State) :
    (x >>= f) s = match x s with
      | .ok a t => f a t
      | .error e t => .error e t := by
  show EStateM.bind x f s = _
  unfold EStateM.bind
  cases x s <;> rfl

@[simp] theorem op_pure {α : Type} (a : α) (s : State) : (pure a : Op α) s = .ok a s := rfl
@[simp] theorem op_throw {α : Type} (e : Fault) (s : State) : (throw e : Op α) s = .error e s := rfl
@[simp] theorem readReg_eq (r : Reg) (s : State) : readReg r s = .ok (s.reg r) s := rfl
@[simp] theorem writeReg_eq (r : Reg) (v : Word) (s : State) : writeReg r v s = .ok () (s.setReg r v) := rfl
@[simp] theorem readFsz_eq (s : State) : readFsz s = .ok s.fsz s := rfl
@[simp] theorem writeFsz_eq (v : Word) (s : State) : writeFsz v s = .ok () (s.setFsz v) := rfl
@[simp] theorem reloadAdj_eq (s : State) : reloadAdj s = .ok s.cfg.fszReloadAdj.amount s := rfl

theorem inRange_iff (s : State) (a n : Nat) : s.inRange a n = true ↔ a + n - 1 < s.cfg.memSize := by simp [State.inRange]

/-- The check of an access reads the parameters alone. -/
theorem inRange_congr {s t : State} (h : t.cfg = s.cfg) (a n : Nat) : t.inRange a n = s.inRange a n := by
  simp [State.inRange, h]

/-! ### Checked memory accesses (spec/20_memory.md R34 to R36) -/

theorem memRead8_eq (a : Nat) (s : State) : memRead8 a s =
    if a < s.cfg.memSize then .ok (s.mem.byte a) s else .error (.outOfBounds a 1 .read) s := by
  simp [memRead8, State.inRange]

theorem memRead16_eq (a : Nat) (s : State) : memRead16 a s =
    if a + 1 < s.cfg.memSize then .ok (s.mem.word a) s else .error (.outOfBounds a 2 .read) s := by
  simp [memRead16, State.inRange]

theorem memWrite8_eq (a : Nat) (v : Byte) (s : State) : memWrite8 a v s =
    if a < s.cfg.memSize then .ok () (s.setMem (s.mem.setByte a v)) else .error (.outOfBounds a 1 .write) s := by
  simp [memWrite8, State.inRange]

theorem memWrite16_eq (a : Nat) (v : Word) (s : State) : memWrite16 a v s =
    if a + 1 < s.cfg.memSize then .ok () (s.setMem (s.mem.setWord a v)) else .error (.outOfBounds a 2 .write) s := by
  simp [memWrite16, State.inRange]

/-! ### The first access of a list that does not fit -/

theorem firstBad_nil (size : Nat) : firstBad size [] = none := rfl

theorem firstBad_cons (size : Nat) (x : Access) (xs : List Access) :
    firstBad size (x :: xs) = if x.addr + x.width - 1 < size then firstBad size xs else some x := by
  simp only [firstBad, List.find?, Access.fits]
  by_cases h : x.addr + x.width - 1 < size <;> simp [h]

/-! ### Running an instruction -/

theorem runInstr_ok {i : Instr} {effect : Op Unit} {s t : State}
    (h : effect (advanceIp (instrLength i) s) = .ok () t) : runInstr i effect s = .next t := by
  simp [runInstr, h]

theorem runInstr_error {i : Instr} {effect : Op Unit} {s t : State} {f : Fault}
    (h : effect (advanceIp (instrLength i) s) = .error f t) :
    runInstr i effect s = .next (raise f (s.reg .ip) (some (opcodeOf s.cfg.opc i)) t) := by
  simp [runInstr, h]

/-- An instruction always answers a next state: that of its effect, or the one a raise in it leaves. -/
theorem runInstr_cases (i : Instr) (effect : Op Unit) (s : State) :
    (∃ t, effect (advanceIp (instrLength i) s) = .ok () t ∧ runInstr i effect s = .next t) ∨
    (∃ f t, effect (advanceIp (instrLength i) s) = .error f t ∧
      runInstr i effect s = .next (raise f (s.reg .ip) (some (opcodeOf s.cfg.opc i)) t)) := by
  cases h : effect (advanceIp (instrLength i) s) with
  | ok u t => exact .inl ⟨t, rfl, runInstr_ok h⟩
  | error f t => exact .inr ⟨f, t, rfl, runInstr_error h⟩

/-! ### Push and Pop (spec/44_stack.md R90, R91) -/

/-- The state after a `Push` whose write is in range. -/
def pushed (v : Word) (s : State) : State :=
  ((s.setMem (s.mem.setWord (s.reg .sp).toNat v)).setReg .sp (s.reg .sp - 2)).setFsz (s.fsz + 2)

@[simp] theorem pushed_reg (v : Word) (s : State) (q : Reg) :
    (pushed v s).reg q = if q = .sp then s.reg .sp - 2 else s.reg q := by simp [pushed]
@[simp] theorem pushed_cfg (v : Word) (s : State) : (pushed v s).cfg = s.cfg := by simp [pushed]
@[simp] theorem pushed_fsz (v : Word) (s : State) : (pushed v s).fsz = s.fsz + 2 := by simp [pushed]
@[simp] theorem pushed_fault (v : Word) (s : State) : (pushed v s).fault = s.fault := by simp [pushed]
@[simp] theorem pushed_mem (v : Word) (s : State) : (pushed v s).mem = s.mem.setWord (s.reg .sp).toNat v := by
  simp [pushed]

/-- Everything `Push` can do (R90). -/
theorem push_eq (v : Word) (s : State) :
    push v s = if (s.reg .sp).toNat + 1 < s.cfg.memSize then .ok () (pushed v s)
      else .error (.outOfBounds (s.reg .sp).toNat 2 .write) s := by
  simp only [push, op_bind, readReg_eq, memWrite16, State.inRange, decide_eq_true_eq]
  by_cases h : (s.reg .sp).toNat + 1 < s.cfg.memSize <;> simp [h, pushed]

/-- The state after a `Pop` that does not underflow. -/
def popped (s : State) : State := (s.setReg .sp (s.reg .sp + 2)).setFsz (s.fsz - 2)

@[simp] theorem popped_reg (s : State) (q : Reg) : (popped s).reg q = if q = .sp then s.reg .sp + 2 else s.reg q := by
  simp [popped]
@[simp] theorem popped_cfg (s : State) : (popped s).cfg = s.cfg := by simp [popped]
@[simp] theorem popped_fsz (s : State) : (popped s).fsz = s.fsz - 2 := by simp [popped]
@[simp] theorem popped_fault (s : State) : (popped s).fault = s.fault := by simp [popped]
@[simp] theorem popped_mem (s : State) : (popped s).mem = s.mem := by simp [popped]

theorem ofNat_toNat_add_two (w : Word) : BitVec.ofNat 16 (w.toNat + 2) = w + 2 := by
  apply BitVec.eq_of_toNat_eq; simp

/-- Everything `Pop` can do (R91): the read inside it is always in range. -/
theorem pop_eq (s : State) :
    pop s = if s.cfg.memSize - 2 < (s.reg .sp).toNat + 2 then .error (.stackUnderflow ((s.reg .sp).toNat + 2)) s
      else .ok (s.mem.word ((s.reg .sp).toNat + 2)) (popped s) := by
  simp only [pop, op_bind, readReg_eq, checkUnderflow, gt_iff_lt]
  by_cases h : s.cfg.memSize - 2 < (s.reg .sp).toNat + 2
  · simp [h]
  · have h2 : (s.reg .sp).toNat + 2 + 1 < s.cfg.memSize := by omega
    simp [h, memRead16, State.inRange, h2, popped, ofNat_toNat_add_two]

/-! ### Pushing a list of words -/

/-- Pushes words in the order listed. -/
def pushList : List Word → Op Unit
  | [] => pure ()
  | v :: rest => do
    push v
    pushList rest

theorem pushList_nil (s : State) : pushList [] s = .ok () s := rfl

theorem pushList_cons (v : Word) (rest : List Word) (s : State) :
    pushList (v :: rest) s = if (s.reg .sp).toNat + 1 < s.cfg.memSize then pushList rest (pushed v s)
      else .error (.outOfBounds (s.reg .sp).toNat 2 .write) s := by
  show (push v >>= fun _ => pushList rest) s = _
  rw [op_bind, push_eq]
  split_ifs <;> rfl

/-- `sp - 2k` as pushes compute it, one 2 at a time. -/
theorem slot_succ (w : Word) (k : Nat) : w - 2 - BitVec.ofNat 16 (2 * k) = w - BitVec.ofNat 16 (2 * (k + 1)) := by
  have : BitVec.ofNat 16 (2 * (k + 1)) = 2 + BitVec.ofNat 16 (2 * k) := by
    rw [show 2 * (k + 1) = 2 + 2 * k by ring, BitVec.ofNat_add]; rfl
  rw [this]; ring

/-- Adding 2 once more, one 2 at a time. -/
theorem add_two_succ (w : Word) (k : Nat) : w + 2 + BitVec.ofNat 16 (2 * k) = w + BitVec.ofNat 16 (2 * (k + 1)) := by
  have : BitVec.ofNat 16 (2 * (k + 1)) = 2 + BitVec.ofNat 16 (2 * k) := by
    rw [show 2 * (k + 1) = 2 + 2 * k by ring, BitVec.ofNat_add]; rfl
  rw [this, add_assoc]

theorem frameSlot_pushed (v : Word) (s : State) (k : Nat) : frameSlot (pushed v s) k = frameSlot s (k + 1) := by
  simp only [frameSlot, pushed_reg, if_true, slot_succ]

/-- Two of the words a run of at most 32768 pushes writes have no byte in common, when both are in range. -/
theorem slots_apart (w : Word) {j k : Nat} (hjk : j < k) (hk : k < 32768)
    (_ : (w - BitVec.ofNat 16 (2 * j)).toNat + 1 < 65536) (_ : (w - BitVec.ofNat 16 (2 * k)).toNat + 1 < 65536) :
    (w - BitVec.ofNat 16 (2 * j)).toNat + 1 < (w - BitVec.ofNat 16 (2 * k)).toNat ∨
      (w - BitVec.ofNat 16 (2 * k)).toNat + 1 < (w - BitVec.ofNat 16 (2 * j)).toNat := by
  simp only [BitVec.toNat_sub, BitVec.toNat_ofNat] at *
  omega

/-- Pushing words that all find room: `sp` and `FSZ` move by two bytes a word, each word is in its slot, and no byte outside
the slots, no other register, no parameter and not the latch changes. -/
theorem pushList_ok (vs : List Word) (s : State) (hlen : vs.length ≤ 32768) (hsize : s.cfg.memSize ≤ 65536)
    (hroom : ∀ k, k < vs.length → frameSlot s k + 1 < s.cfg.memSize) :
    ∃ t, pushList vs s = .ok () t ∧ t.cfg = s.cfg ∧ t.fault = s.fault ∧
      (∀ q, t.reg q = if q = .sp then s.reg .sp - BitVec.ofNat 16 (2 * vs.length) else s.reg q) ∧
      t.fsz = s.fsz + BitVec.ofNat 16 (2 * vs.length) ∧
      (∀ k v, vs[k]? = some v → t.mem.word (frameSlot s k) = v) ∧
      (∀ a, (∀ k, k < vs.length → a ≠ frameSlot s k ∧ a ≠ frameSlot s k + 1) → t.mem.byte a = s.mem.byte a) := by
  induction vs generalizing s with
  | nil => exact ⟨s, rfl, rfl, rfl, by intro q; split_ifs with h <;> simp [h], by simp, by simp, by simp⟩
  | cons v rest ih =>
    have h0 : (s.reg .sp).toNat + 1 < s.cfg.memSize := by simpa [frameSlot] using hroom 0 (by simp)
    have hslot := frameSlot_pushed v s
    simp only [List.length_cons] at hlen hroom
    obtain ⟨t, ht, hc, hf, hr, hz, hw, hb⟩ := ih (pushed v s) (by omega) (by simpa using hsize)
      (by intro k hk; rw [hslot]; simpa using hroom (k + 1) (by omega))
    refine ⟨t, ?_, ?_, ?_, ?_, ?_, ?_, ?_⟩
    · rw [pushList_cons, if_pos h0, ht]
    · simpa using hc
    · simpa using hf
    · intro q; rw [hr]; simp only [pushed_reg, if_true, List.length_cons]
      split_ifs with h
      · exact slot_succ _ _
      · rfl
    · rw [hz, pushed_fsz, List.length_cons, add_two_succ]
    · intro k u hk
      cases k with
      | succ k => rw [← hslot]; exact hw k u (by simpa using hk)
      | zero =>
        have hu : v = u := by simpa using hk
        have apart : ∀ j, j < rest.length → frameSlot s 0 + 1 < frameSlot s (j + 1) ∨ frameSlot s (j + 1) + 1 < frameSlot s 0 := by
          intro j hj
          exact slots_apart (s.reg .sp) (by omega) (by omega)
            (by have := hroom 0 (by omega); simp only [frameSlot] at this; omega)
            (by have := hroom (j + 1) (by omega); simp only [frameSlot] at this; omega)
        have hs0 : frameSlot s 0 = (s.reg .sp).toNat := by simp [frameSlot]
        rw [word_congr (m := (pushed v s).mem), pushed_mem, hs0, word_setWord, hu]
        · exact hb _ (fun j hj => by rw [hslot]; have := apart j hj; omega)
        · exact hb _ (fun j hj => by rw [hslot]; have := apart j hj; omega)
    · intro a ha
      have hs0 : frameSlot s 0 = (s.reg .sp).toNat := by simp [frameSlot]
      have h00 := ha 0 (by simp)
      rw [hb a (fun k hk => by rw [hslot]; exact ha (k + 1) (by simp; omega)), pushed_mem, byte_setWord, ← hs0,
        if_neg h00.2, if_neg h00.1]

theorem pushList_append (vs ws : List Word) (s : State) :
    pushList (vs ++ ws) s = match pushList vs s with
      | .ok _ t => pushList ws t
      | .error e t => .error e t := by
  induction vs generalizing s with
  | nil => rfl
  | cons v rest ih =>
    rw [List.cons_append, pushList_cons, pushList_cons]
    split_ifs with h
    · exact ih _
    · rfl

/-- Pushing words of which one finds no room raises at the first such one, in the state the pushes before it leave. -/
theorem pushList_error (vs : List Word) (s : State) (k : Nat) (hk : k < vs.length)
    (hbefore : ∀ j, j < k → frameSlot s j + 1 < s.cfg.memSize) (hbad : ¬ frameSlot s k + 1 < s.cfg.memSize) :
    ∃ t, pushList (vs.take k) s = .ok () t ∧ pushList vs s = .error (.outOfBounds (frameSlot s k) 2 .write) t := by
  induction vs generalizing s k with
  | nil => simp at hk
  | cons v rest ih =>
    have hs0 : frameSlot s 0 = (s.reg .sp).toNat := by simp [frameSlot]
    cases k with
    | zero =>
      refine ⟨s, rfl, ?_⟩
      rw [pushList_cons, if_neg (by rwa [← hs0]), hs0]
    | succ k =>
      have h0 : (s.reg .sp).toNat + 1 < s.cfg.memSize := by rw [← hs0]; exact hbefore 0 (by omega)
      obtain ⟨t, h1, h2⟩ := ih (pushed v s) k (by simpa using hk)
        (by intro j hj; rw [frameSlot_pushed]; simpa using hbefore (j + 1) (by omega))
        (by rw [frameSlot_pushed]; simpa using hbad)
      refine ⟨t, ?_, ?_⟩
      · rw [List.take_succ_cons, pushList_cons, if_pos h0, h1]
      · rw [pushList_cons, if_pos h0, h2, frameSlot_pushed]

/-- Pushes write no byte outside their slots, whether they end normally or raise. -/
theorem pushList_frame (vs : List Word) (s : State) (a : Nat)
    (ha : ∀ k, k < vs.length → a ≠ frameSlot s k ∧ a ≠ frameSlot s k + 1) :
    match pushList vs s with
      | .ok _ t => t.mem.byte a = s.mem.byte a
      | .error _ t => t.mem.byte a = s.mem.byte a := by
  induction vs generalizing s with
  | nil => rfl
  | cons v rest ih =>
    have hs0 : frameSlot s 0 = (s.reg .sp).toNat := by simp [frameSlot]
    have h00 := ha 0 (by simp)
    have hkeep : (pushed v s).mem.byte a = s.mem.byte a := by
      rw [pushed_mem, byte_setWord, ← hs0, if_neg h00.2, if_neg h00.1]
    rw [pushList_cons]
    split_ifs with h
    · rw [← hkeep]
      exact ih (pushed v s) (fun k hk => by rw [frameSlot_pushed]; exact ha (k + 1) (by simp; omega))
    · rfl

/-- Pushes change no register but `sp`, no parameter and not the latch, whether they end normally or raise. -/
theorem pushList_regs (vs : List Word) (s : State) :
    match pushList vs s with
      | .ok _ t => (∀ q, q ≠ .sp → t.reg q = s.reg q) ∧ t.cfg = s.cfg ∧ t.fault = s.fault
      | .error _ t => (∀ q, q ≠ .sp → t.reg q = s.reg q) ∧ t.cfg = s.cfg ∧ t.fault = s.fault := by
  induction vs generalizing s with
  | nil => exact ⟨fun _ _ => rfl, rfl, rfl⟩
  | cons v rest ih =>
    rw [pushList_cons]
    split_ifs with h
    · have := ih (pushed v s)
      revert this
      cases pushList rest (pushed v s) <;> simp +contextual
    · exact ⟨fun _ _ => rfl, rfl, rfl⟩

/-- Every byte that pushes write is inside the array, and they keep the canonical form. -/
theorem pushList_keeps_form (vs : List Word) (s : State) (hw : s.mem.wf = true)
    (hin : s.mem.within s.cfg.memSize = true) :
    (∀ t, pushList vs s = .ok () t → t.mem.wf = true ∧ t.mem.within t.cfg.memSize = true) ∧
    (∀ e t, pushList vs s = .error e t → t.mem.wf = true ∧ t.mem.within t.cfg.memSize = true) := by
  induction vs generalizing s with
  | nil => simp_all [pushList_nil]
  | cons v rest ih =>
    rw [pushList_cons]
    split_ifs with h
    · exact ih (pushed v s) (by simp [hw]) (by simpa using within_setWord _ _ _ _ hin h)
    · simp_all

/-! ### PushState (spec/45_call_return.md R100) -/

/-- The ten words a call pushes, in order: `r1`..`r8`, `ip`, and the frame size. -/
def frameWords (s : State) : List Word :=
  [s.reg .r1, s.reg .r2, s.reg .r3, s.reg .r4, s.reg .r5, s.reg .r6, s.reg .r7, s.reg .r8, s.reg .ip, s.fsz + 20]

theorem pushRegs_eq (rs : List Reg) (s : State) (h : ∀ r ∈ rs, r ≠ .sp) : pushRegs rs s = pushList (rs.map s.reg) s := by
  induction rs generalizing s with
  | nil => rfl
  | cons r rest ih =>
    have hrest : ∀ v : Word, rest.map (pushed v s).reg = rest.map s.reg := by
      intro v; apply List.map_congr_left; intro q hq; simp [h q (by simp [hq])]
    show (readReg r >>= fun v => push v >>= fun _ => pushRegs rest) s = _
    rw [op_bind, readReg_eq]
    show (push (s.reg r) >>= fun _ => pushRegs rest) s = _
    rw [op_bind, push_eq, List.map_cons, pushList_cons]
    split_ifs with hp
    · show pushRegs rest (pushed (s.reg r) s) = _
      rw [ih _ (fun q hq => h q (by simp [hq])), hrest]
    · rfl

theorem pushList_fsz (vs : List Word) (s t : State) (h : pushList vs s = .ok () t) :
    t.fsz = s.fsz + BitVec.ofNat 16 (2 * vs.length) := by
  induction vs generalizing s with
  | nil => simp only [pushList_nil] at h; cases h; simp
  | cons v rest ih =>
    rw [pushList_cons] at h
    split_ifs at h
    rw [ih _ h, pushed_fsz, List.length_cons, add_two_succ]

/-- Everything `PushState` can do: the ten pushes, and after them `fp <- sp` and `FSZ <- 0`. -/
theorem pushState_eq (s : State) :
    pushState s = match pushList (frameWords s) s with
      | .ok _ t => .ok () ((t.setReg .fp (t.reg .sp)).setFsz 0)
      | .error e t => .error e t := by
  have hsplit : frameWords s = savedRegs.map s.reg ++ [s.fsz + 20] := rfl
  rw [hsplit, pushList_append]
  show (pushRegs savedRegs >>= _) s = _
  rw [op_bind, pushRegs_eq _ _ (by decide)]
  cases h : pushList (savedRegs.map s.reg) s with
  | error e t => rfl
  | ok u t =>
    have hz := pushList_fsz _ _ _ h
    have h18 : t.fsz + 2 = s.fsz + 20 := by
      rw [hz]
      have : BitVec.ofNat 16 (2 * (savedRegs.map s.reg).length) = (18 : Word) := by simp [savedRegs]
      rw [this, add_assoc]; rfl
    simp only [op_bind, readFsz_eq, h18, push_eq, pushList_cons, pushList_nil]
    by_cases hp : (t.reg .sp).toNat + 1 < t.cfg.memSize <;> simp [hp]

/-! ### Pops in a row -/

/-- The state after `n` pops that do not underflow. -/
def poppedBy (n : Nat) (s : State) : State :=
  (s.setReg .sp (s.reg .sp + BitVec.ofNat 16 (2 * n))).setFsz (s.fsz - BitVec.ofNat 16 (2 * n))

@[simp] theorem poppedBy_reg (n : Nat) (s : State) (q : Reg) :
    (poppedBy n s).reg q = if q = .sp then s.reg .sp + BitVec.ofNat 16 (2 * n) else s.reg q := by simp [poppedBy]
@[simp] theorem poppedBy_cfg (n : Nat) (s : State) : (poppedBy n s).cfg = s.cfg := by simp [poppedBy]
@[simp] theorem poppedBy_fsz (n : Nat) (s : State) : (poppedBy n s).fsz = s.fsz - BitVec.ofNat 16 (2 * n) := by
  simp [poppedBy]
@[simp] theorem poppedBy_fault (n : Nat) (s : State) : (poppedBy n s).fault = s.fault := by simp [poppedBy]
@[simp] theorem poppedBy_mem (n : Nat) (s : State) : (poppedBy n s).mem = s.mem := by simp [poppedBy]

theorem poppedBy_zero (s : State) : poppedBy 0 s = s := by
  apply state_ext <;> simp

theorem poppedBy_succ (n : Nat) (s : State) : poppedBy n (popped s) = poppedBy (n + 1) s := by
  apply state_ext
  · simp
  · intro r; simp only [poppedBy_reg, popped_reg, if_true]; split_ifs <;> first | exact add_two_succ _ _ | rfl
  · simp only [poppedBy_fsz, popped_fsz, slot_succ]
  · simp
  · simp

theorem toNat_add_ofNat (w : Word) (n : Nat) (h : w.toNat + n < 65536) : (w + BitVec.ofNat 16 n).toNat = w.toNat + n := by
  rw [BitVec.toNat_add, BitVec.toNat_ofNat]; omega

/-- A pop with room above, and the state of its successors. -/
theorem pop_ok (s : State) (h : (s.reg .sp).toNat + 3 < s.cfg.memSize) :
    pop s = .ok (s.mem.word ((s.reg .sp).toNat + 2)) (popped s) := by
  rw [pop_eq, if_neg (by omega)]

theorem pop_error (s : State) (h : ¬ (s.reg .sp).toNat + 3 < s.cfg.memSize) :
    pop s = .error (.stackUnderflow ((s.reg .sp).toNat + 2)) s := by
  rw [pop_eq, if_pos (by omega)]

/-- `n` dropped words with room for all. -/
theorem discard_ok (n : Nat) (s : State) (hsize : s.cfg.memSize ≤ 65536)
    (h : (s.reg .sp).toNat + 2 * n + 1 < s.cfg.memSize ∨ n = 0) : discard n s = .ok () (poppedBy n s) := by
  induction n generalizing s with
  | zero =>
    rw [poppedBy_zero]; rfl
  | succ n ih =>
    have hroom : (s.reg .sp).toNat + 2 * (n + 1) + 1 < s.cfg.memSize := by omega
    have hsp : (s.reg .sp + 2 : Word).toNat = (s.reg .sp).toNat + 2 := toNat_add_ofNat _ 2 (by omega)
    show (pop >>= fun _ => discard n) s = _
    rw [op_bind, pop_ok _ (by omega)]
    show discard n (popped s) = _
    rw [ih _ (by simpa using hsize) (by simp only [popped_reg, if_true, popped_cfg, hsp]; omega), poppedBy_succ]

/-- `n` dropped words of which the `k`-th finds the stack empty: StackUnderflow there. -/
theorem discard_error (n k : Nat) (s : State) (hsize : s.cfg.memSize ≤ 65536) (hk : k < n)
    (hbefore : k = 0 ∨ (s.reg .sp).toNat + 2 * k + 1 < s.cfg.memSize)
    (hbad : ¬ (s.reg .sp).toNat + 2 * k + 3 < s.cfg.memSize) :
    discard n s = .error (.stackUnderflow ((s.reg .sp).toNat + 2 * k + 2)) (poppedBy k s) := by
  induction n generalizing s k with
  | zero => omega
  | succ n ih =>
    show (pop >>= fun _ => discard n) s = _
    rw [op_bind]
    cases k with
    | zero =>
      rw [pop_error _ (by omega), poppedBy_zero]
    | succ k =>
      have hroom : (s.reg .sp).toNat + 2 * (k + 1) + 1 < s.cfg.memSize := by omega
      have hsp : (s.reg .sp + 2 : Word).toNat = (s.reg .sp).toNat + 2 := toNat_add_ofNat _ 2 (by omega)
      rw [pop_ok _ (by omega)]
      show discard n (popped s) = _
      rw [ih k (popped s) (by simpa using hsize) (by omega)
        (by simp only [popped_reg, if_true, popped_cfg, hsp]; omega)
        (by simp only [popped_reg, if_true, popped_cfg, hsp]; omega), poppedBy_succ]
      simp only [popped_reg, if_true, hsp]
      congr 2; omega

/-- Pops into registers with room for all: each register holds its word, and nothing but `sp` and `FSZ` changes beside. -/
theorem popRegs_ok (rs : List Reg) (s : State) (hsize : s.cfg.memSize ≤ 65536) (hsp : .sp ∉ rs) (hnd : rs.Nodup)
    (hroom : (s.reg .sp).toNat + 2 * rs.length + 1 < s.cfg.memSize ∨ rs.length = 0) :
    ∃ t, popRegs rs s = .ok () t ∧ t.cfg = s.cfg ∧ t.fault = s.fault ∧ t.mem = s.mem ∧
      t.fsz = s.fsz - BitVec.ofNat 16 (2 * rs.length) ∧
      t.reg .sp = s.reg .sp + BitVec.ofNat 16 (2 * rs.length) ∧
      (∀ k r, rs[k]? = some r → t.reg r = s.mem.word ((s.reg .sp).toNat + 2 + 2 * k)) ∧
      (∀ q, q ∉ rs → q ≠ .sp → t.reg q = s.reg q) := by
  induction rs generalizing s with
  | nil => exact ⟨s, rfl, rfl, rfl, rfl, by simp, by simp, by simp, by simp⟩
  | cons r rest ih =>
    simp only [List.length_cons, List.mem_cons, not_or, List.nodup_cons] at hroom hsp hnd
    have h2 : (s.reg .sp + 2 : Word).toNat = (s.reg .sp).toNat + 2 := toNat_add_ofNat _ 2 (by omega)
    obtain ⟨t, ht, hc, hf, hm, hz, hp, hr, hq⟩ := ih ((popped s).setReg r (s.mem.word ((s.reg .sp).toNat + 2)))
      (by simpa using hsize) hsp.2 hnd.2
      (by simp only [setReg_reg, popped_reg, hsp.1, if_true, if_false, setReg_cfg, popped_cfg, h2]; omega)
    simp only [setReg_reg, popped_reg, hsp.1, if_true, if_false, setReg_cfg, popped_cfg, setReg_fault, popped_fault,
      setReg_mem, popped_mem, setReg_fsz, popped_fsz] at hc hf hm hz hp hr hq
    refine ⟨t, ?_, hc, hf, hm, ?_, ?_, ?_, ?_⟩
    · show (pop >>= fun v => writeReg r v >>= fun _ => popRegs rest) s = _
      rw [op_bind, pop_ok _ (by omega)]
      exact ht
    · rw [hz, List.length_cons, slot_succ]
    · rw [hp, List.length_cons, add_two_succ]
    · intro k q hk
      cases k with
      | zero =>
        have : r = q := by simpa using hk
        subst this
        rw [hq r hnd.1 (Ne.symm hsp.1)]; simp
      | succ k =>
        rw [hr k q (by simpa using hk), h2]
        congr 1; omega
    · intro q hqr hqs
      simp only [List.mem_cons, not_or] at hqr
      rw [hq q hqr.2 hqs]; simp [hqr.1, hqs]

/-- Pops into registers of which the `k`-th finds the stack empty: StackUnderflow there, with the registers before it
already written. -/
theorem popRegs_error (rs : List Reg) (s : State) (k : Nat) (hsize : s.cfg.memSize ≤ 65536) (hsp : .sp ∉ rs)
    (hnd : rs.Nodup) (hk : k < rs.length) (hbefore : k = 0 ∨ (s.reg .sp).toNat + 2 * k + 1 < s.cfg.memSize)
    (hbad : ¬ (s.reg .sp).toNat + 2 * k + 3 < s.cfg.memSize) :
    ∃ t, popRegs rs s = .error (.stackUnderflow ((s.reg .sp).toNat + 2 * k + 2)) t ∧ t.cfg = s.cfg ∧
      t.fault = s.fault ∧ t.mem = s.mem ∧ t.fsz = s.fsz - BitVec.ofNat 16 (2 * k) ∧
      t.reg .sp = s.reg .sp + BitVec.ofNat 16 (2 * k) ∧
      (∀ j r, j < k → rs[j]? = some r → t.reg r = s.mem.word ((s.reg .sp).toNat + 2 + 2 * j)) ∧
      (∀ j r, k ≤ j → rs[j]? = some r → t.reg r = s.reg r) ∧
      (∀ q, q ∉ rs → q ≠ .sp → t.reg q = s.reg q) := by
  induction rs generalizing s k with
  | nil => simp at hk
  | cons r rest ih =>
    simp only [List.mem_cons, not_or, List.nodup_cons] at hsp hnd
    have hunfold : popRegs (r :: rest) s = (pop >>= fun v => writeReg r v >>= fun _ => popRegs rest) s := rfl
    rw [hunfold, op_bind]
    cases k with
    | zero =>
      rw [pop_error _ (by omega)]
      exact ⟨s, rfl, rfl, rfl, rfl, by simp, by simp, by simp, fun _ _ _ _ => rfl, fun _ _ _ => rfl⟩
    | succ k =>
      have h2 : (s.reg .sp + 2 : Word).toNat = (s.reg .sp).toNat + 2 := toNat_add_ofNat _ 2 (by omega)
      obtain ⟨t, ht, hc, hf, hm, hz, hp, hw, hl, hq⟩ := ih ((popped s).setReg r (s.mem.word ((s.reg .sp).toNat + 2))) k
        (by simpa using hsize) hsp.2 hnd.2 (by simpa using hk)
        (by simp only [setReg_reg, popped_reg, hsp.1, if_true, if_false, setReg_cfg, popped_cfg, h2]; omega)
        (by simp only [setReg_reg, popped_reg, hsp.1, if_true, if_false, setReg_cfg, popped_cfg, h2]; omega)
      simp only [setReg_reg, popped_reg, hsp.1, if_true, if_false, setReg_cfg, popped_cfg, setReg_fault, popped_fault,
        setReg_mem, popped_mem, setReg_fsz, popped_fsz, h2] at ht hc hf hm hz hp hw hl hq
      rw [pop_ok _ (by omega)]
      refine ⟨t, ?_, hc, hf, hm, ?_, ?_, ?_, ?_, ?_⟩
      · rw [show (s.reg .sp).toNat + 2 * (k + 1) + 2 = (s.reg .sp).toNat + 2 + 2 * k + 2 by omega]
        exact ht
      · rw [hz, slot_succ]
      · rw [hp, add_two_succ]
      · intro j q hj hr
        cases j with
        | zero =>
          have : r = q := by simpa using hr
          subst this
          rw [hq r hnd.1 (Ne.symm hsp.1)]; simp
        | succ j =>
          rw [hw j q (by omega) (by simpa using hr)]
          congr 1; omega
      · intro j q hj hr
        cases j with
        | zero => omega
        | succ j =>
          have hr' : rest[j]? = some q := by simpa using hr
          have hmem : q ∈ rest := List.mem_of_getElem? hr'
          have hqr : q ≠ r := by rintro rfl; exact hnd.1 hmem
          have hqs : q ≠ .sp := by rintro rfl; exact hsp.2 hmem
          rw [hl j q (by omega) hr', if_neg hqr, if_neg hqs]
      · intro q hqr hqs
        simp only [List.mem_cons, not_or] at hqr
        rw [hq q hqr.2 hqs]; simp [hqr.1, hqs]

/-! ### PopState (spec/45_call_return.md R101) -/

/-- `PopState` after its first two statements: the pops of `ip` and `r8`..`r1`, the count, the arguments, and `fp`. -/
def popStateRest (f size : Word) : Op Unit := do
  popRegs savedRegs.reverse
  let n ← pop
  discard n.toNat
  writeReg .fp (f + size)

/-- The state in which the saved registers are popped: `sp` above the size word, `FSZ` reloaded. -/
def sizePopped (s : State) : State :=
  (popped (s.setReg .sp (s.reg .fp))).setFsz (s.mem.word ((s.reg .fp).toNat + 2) - s.cfg.fszReloadAdj.amount)

@[simp] theorem sizePopped_reg (s : State) (q : Reg) :
    (sizePopped s).reg q = if q = .sp then s.reg .fp + 2 else s.reg q := by
  simp only [sizePopped, setFsz_reg, popped_reg, setReg_reg]; split_ifs <;> simp_all
@[simp] theorem sizePopped_cfg (s : State) : (sizePopped s).cfg = s.cfg := by simp [sizePopped]
@[simp] theorem sizePopped_fsz (s : State) :
    (sizePopped s).fsz = s.mem.word ((s.reg .fp).toNat + 2) - s.cfg.fszReloadAdj.amount := by simp [sizePopped]
@[simp] theorem sizePopped_fault (s : State) : (sizePopped s).fault = s.fault := by simp [sizePopped]
@[simp] theorem sizePopped_mem (s : State) : (sizePopped s).mem = s.mem := by simp [sizePopped]

theorem popState_eq (s : State) :
    popState s = if (s.reg .fp).toNat + 3 < s.cfg.memSize
      then popStateRest (s.reg .fp) (s.mem.word ((s.reg .fp).toNat + 2)) (sizePopped s)
      else .error (.stackUnderflow ((s.reg .fp).toNat + 2)) (s.setReg .sp (s.reg .fp)) := by
  simp only [popState, op_bind, readReg_eq, writeReg_eq]
  split_ifs with h
  · rw [pop_ok _ (by simpa using h)]
    simp [sizePopped, popStateRest, op_bind]
  · rw [pop_error _ (by simpa using h)]
    simp

/-- RET with room for all its pops (R101): what every register, `FSZ` and the memory hold afterwards. -/
theorem popState_ok (s : State) (hsize : s.cfg.memSize ≤ 65536)
    (hroom : (s.reg .fp).toNat + 22 + 2 * returnCount s + 1 < s.cfg.memSize) :
    ∃ t, popState s = .ok () t ∧ t.cfg = s.cfg ∧ t.fault = s.fault ∧ t.mem = s.mem ∧
      t.fsz = s.mem.word ((s.reg .fp).toNat + 2) - s.cfg.fszReloadAdj.amount - BitVec.ofNat 16 (20 + 2 * returnCount s) ∧
      t.reg .sp = s.reg .fp + BitVec.ofNat 16 (22 + 2 * returnCount s) ∧
      t.reg .fp = s.reg .fp + s.mem.word ((s.reg .fp).toNat + 2) ∧
      t.reg .acc = s.reg .acc ∧
      (∀ k r, savedRegs.reverse[k]? = some r → t.reg r = s.mem.word ((s.reg .fp).toNat + 4 + 2 * k)) := by
  have hf2 : (s.reg .fp + 2 : Word).toNat = (s.reg .fp).toNat + 2 := toNat_add_ofNat _ 2 (by omega)
  obtain ⟨u, hu, hc, hf, hm, hz, hp, hr, hq⟩ := popRegs_ok savedRegs.reverse (sizePopped s) (by simpa using hsize)
    (by decide) (by decide) (by left; simp [savedRegs]; omega)
  simp only [sizePopped_cfg, sizePopped_fault, sizePopped_mem, sizePopped_fsz, sizePopped_reg, if_true, hf2,
    show savedRegs.reverse.length = 9 from rfl] at hc hf hm hz hp hr hq
  have hu18 : (u.reg .sp).toNat = (s.reg .fp).toNat + 20 := by
    rw [hp, toNat_add_ofNat _ _ (by omega), hf2]
  have hword : u.mem.word ((u.reg .sp).toNat + 2) = s.mem.word ((s.reg .fp).toNat + 22) := by rw [hm, hu18]
  have hpop2 : (popped u).reg .sp = u.reg .sp + 2 := by simp
  have hsp2 : (u.reg .sp + 2 : Word).toNat = (s.reg .fp).toNat + 22 := by
    have := toNat_add_ofNat (u.reg .sp) 2 (by omega)
    rw [hu18] at this; exact this
  have hdis := discard_ok (returnCount s) (popped u) (by simpa [hc] using hsize)
    (by left; rw [hpop2, hsp2, popped_cfg, hc]; exact hroom)
  refine ⟨(poppedBy (returnCount s) (popped u)).setReg .fp (s.reg .fp + s.mem.word ((s.reg .fp).toNat + 2)), ?_, ?_, ?_, ?_,
    ?_, ?_, ?_, ?_, ?_⟩
  · rw [popState_eq, if_pos (by omega), popStateRest, op_bind, hu]
    show (pop >>= fun n => discard n.toNat >>= fun _ => _) u = _
    rw [op_bind, pop_ok _ (by rw [hu18, hc]; omega), hword]
    show (discard (returnCount s) >>= fun _ => _) (popped u) = _
    rw [op_bind, hdis]
    rfl
  · simpa using hc
  · simpa using hf
  · simpa using hm
  · simp only [setReg_fsz, poppedBy_fsz, popped_fsz, hz]
    rw [show 20 + 2 * returnCount s = 18 + (2 + 2 * returnCount s) by ring, BitVec.ofNat_add, BitVec.ofNat_add,
      show 2 * 9 = 18 by rfl, show (2#16 : Word) = 2 from rfl]
    simp only [sub_sub, add_assoc]
  · simp only [setReg_reg, poppedBy_reg, popped_reg, hp, if_true, reduceCtorEq, if_false]
    rw [show 22 + 2 * returnCount s = 2 + (18 + (2 + 2 * returnCount s)) by ring, BitVec.ofNat_add, BitVec.ofNat_add,
      BitVec.ofNat_add, show 2 * 9 = 18 by rfl, show (2#16 : Word) = 2 from rfl]
    simp only [add_assoc]
  · simp
  · simp [hq .acc (by decide) (by decide)]
  · intro k r hk
    have hne : r ≠ .sp ∧ r ≠ .fp := by
      have : r ∈ savedRegs.reverse := List.mem_of_getElem? hk
      constructor <;> rintro rfl <;> revert this <;> decide
    simp only [setReg_reg, poppedBy_reg, popped_reg, hne.1, hne.2, if_false]
    rw [hr k r hk]

/-- RET of which the `k`-th pop finds the stack empty: StackUnderflow there; `sp`, `FSZ` and the registers are as the
pops before it left them, `fp`, `acc` and memory as they were. -/
theorem popState_error (s : State) (k : Nat) (hsize : s.cfg.memSize ≤ 65536) (hk : k < 11 + returnCount s)
    (hbefore : ∀ j, j < k → (s.reg .fp).toNat + 2 * j + 3 < s.cfg.memSize)
    (hbad : ¬ (s.reg .fp).toNat + 2 * k + 3 < s.cfg.memSize) :
    ∃ t, popState s = .error (.stackUnderflow ((s.reg .fp).toNat + 2 * k + 2)) t ∧ t.cfg = s.cfg ∧
      t.fault = s.fault ∧ t.mem = s.mem ∧ t.reg .fp = s.reg .fp ∧ t.reg .acc = s.reg .acc ∧
      t.reg .sp = s.reg .fp + BitVec.ofNat 16 (2 * k) ∧
      t.fsz = (if k = 0 then s.fsz else
        s.mem.word ((s.reg .fp).toNat + 2) - s.cfg.fszReloadAdj.amount - BitVec.ofNat 16 (2 * (k - 1))) ∧
      (∀ j r, j + 1 < k → savedRegs.reverse[j]? = some r → t.reg r = s.mem.word ((s.reg .fp).toNat + 4 + 2 * j)) ∧
      (∀ j r, k ≤ j + 1 → savedRegs.reverse[j]? = some r → t.reg r = s.reg r) := by
  have hnsp : ∀ (j : Nat) (r : Reg), savedRegs.reverse[j]? = some r → r ≠ Reg.sp := by
    intro j r hj
    have : r ∈ savedRegs.reverse := List.mem_of_getElem? hj
    rintro rfl; revert this; decide
  by_cases h0 : k = 0
  · subst h0
    refine ⟨s.setReg .sp (s.reg .fp), ?_, ?_, ?_, ?_, ?_, ?_, ?_, ?_, ?_, ?_⟩ <;> simp
    · rw [popState_eq, if_neg (by simpa using hbad)]
    · intro j r hj h; exact absurd h (hnsp j r (by simpa using hj))
  have hfirst := hbefore 0 (by omega)
  have hlast := hbefore (k - 1) (by omega)
  have hf2 : (s.reg .fp + 2 : Word).toNat = (s.reg .fp).toNat + 2 := toNat_add_ofNat _ 2 (by omega)
  obtain ⟨m, rfl⟩ : ∃ m, k = m + 1 := ⟨k - 1, by omega⟩
  have hspk : ∀ n, s.reg .fp + 2 + BitVec.ofNat 16 (2 * n) = s.reg .fp + BitVec.ofNat 16 (2 * (n + 1)) :=
    fun n => add_two_succ _ n
  rw [popState_eq, if_pos (by omega), popStateRest, op_bind]
  simp only [Nat.add_sub_cancel, if_neg h0]
  by_cases h9 : m < 9
  · obtain ⟨u, hu, hc, hf, hm, hz, hp, hw, hl, hq⟩ := popRegs_error savedRegs.reverse (sizePopped s) m (by simpa using hsize)
      (by decide) (by decide) (by simp [savedRegs]; omega)
      (by simp only [sizePopped_reg, sizePopped_cfg, if_true, hf2]; omega)
      (by simp only [sizePopped_reg, sizePopped_cfg, if_true, hf2]; omega)
    simp only [sizePopped_reg, sizePopped_cfg, sizePopped_fault, sizePopped_mem, sizePopped_fsz, if_true, hf2]
      at hu hc hf hm hz hp hw hl hq
    refine ⟨u, ?_, hc, hf, hm, ?_, ?_, ?_, hz, ?_, ?_⟩
    · rw [hu]
      show EStateM.Result.error _ _ = _
      congr 2; omega
    · simpa using hq .fp (by decide) (by decide)
    · simpa using hq .acc (by decide) (by decide)
    · rw [hp, hspk]
    · intro j r hj hr
      exact hw j r (by omega) hr
    · intro j r hj hr
      rw [hl j r (by omega) hr, if_neg (hnsp j r hr)]
  obtain ⟨u, hu, hc, hf, hm, hz, hp, hr, hq⟩ := popRegs_ok savedRegs.reverse (sizePopped s) (by simpa using hsize)
    (by decide) (by decide) (by left; simp [savedRegs]; have := hbefore 9 (by omega); omega)
  simp only [sizePopped_cfg, sizePopped_fault, sizePopped_mem, sizePopped_fsz, sizePopped_reg, if_true, hf2,
    show savedRegs.reverse.length = 9 from rfl] at hc hf hm hz hp hr hq
  have h9' := hbefore 9 (by omega)
  have hu18 : (u.reg .sp).toNat = (s.reg .fp).toNat + 20 := by
    rw [hp, toNat_add_ofNat _ _ (by omega), hf2]
  have hfp : u.reg .fp = s.reg .fp := by simpa using hq .fp (by decide) (by decide)
  have hacc : u.reg .acc = s.reg .acc := by simpa using hq .acc (by decide) (by decide)
  have hlen : ∀ (j : Nat) (r : Reg), savedRegs.reverse[j]? = some r → j < 9 := fun j r hj => (List.getElem?_eq_some_iff.1 hj).1
  rw [hu]
  show ∃ t, (pop >>= fun n => discard n.toNat >>= fun _ => _) u = _ ∧ _
  rw [op_bind]
  by_cases h10 : m = 9
  · subst h10
    rw [pop_error _ (by rw [hu18, hc]; omega)]
    refine ⟨u, ?_, hc, hf, hm, hfp, hacc, ?_, hz, fun j r _ hj => hr j r hj, ?_⟩
    · rw [hu18]
    · rw [hp, hspk]
    · intro j r hj hr'
      have := hlen j r hr'; omega
  have h10' := hbefore 10 (by omega)
  have hword : u.mem.word ((u.reg .sp).toNat + 2) = s.mem.word ((s.reg .fp).toNat + 22) := by rw [hm, hu18]
  have hpop2 : (popped u).reg .sp = u.reg .sp + 2 := by simp
  have hsp2 : (u.reg .sp + 2 : Word).toNat = (s.reg .fp).toNat + 22 := by
    have := toNat_add_ofNat (u.reg .sp) 2 (by omega)
    rw [hu18] at this; exact this
  obtain ⟨n, rfl⟩ : ∃ n, m = n + 10 := ⟨m - 10, by omega⟩
  rw [pop_ok _ (by rw [hu18, hc]; omega), hword]
  show ∃ t, (discard (returnCount s) >>= fun _ => _) (popped u) = _ ∧ _
  rw [op_bind, discard_error (returnCount s) n (popped u) (by simpa [hc] using hsize) (by omega)
    (by rw [hpop2, hsp2, popped_cfg, hc]; omega) (by rw [hpop2, hsp2, popped_cfg, hc]; omega), hpop2, hsp2]
  refine ⟨poppedBy n (popped u), ?_, by simpa using hc, by simpa using hf, by simpa using hm, by simpa using hfp,
    by simpa using hacc, ?_, ?_, ?_, ?_⟩
  · show EStateM.Result.error _ _ = _
    congr 2; omega
  · rw [poppedBy_reg, if_pos rfl, hpop2, add_two_succ, hp, ← hspk, add_assoc, add_assoc, add_assoc, ← BitVec.ofNat_add,
      show 2 * 9 + 2 * (n + 1) = 2 * (n + 10) by ring]
  · rw [poppedBy_fsz, popped_fsz, slot_succ, hz, sub_sub, ← BitVec.ofNat_add,
      show 2 * 9 + 2 * (n + 1) = 2 * (n + 10) by ring]
  · intro j r hj hr'
    rw [poppedBy_reg, if_neg (hnsp j r hr'), popped_reg, if_neg (hnsp j r hr'), hr j r hr']
  · intro j r hj hr'
    have := hlen j r hr'; omega

end Sys2Proof.Machine
end

