-- ==== Sys2Proof/Laws/Effects.lean ====
section
/-! SUPPORT. What an effect cannot change. A relation between two states that the basic writes an instruction may make all
respect (`Allows`) holds between the state before and the state after the instruction, whether it ends normally or at a
raise (`exec_ends`). -/

namespace Sys2Proof.Machine

/-- The relation holds from the start of an operation to its end, normal or at a raise. -/
def Ends {α : Type} (R : State → State → Prop) (op : Op α) : Prop :=
  ∀ s, (∀ a t, op s = .ok a t → R s t) ∧ (∀ e t, op s = .error e t → R s t)

/-- The relation respects writes to the registers in `L`, and writes of `FSZ` and of memory where `stack` and `store` say
so. -/
structure Allows (R : State → State → Prop) (L : List Reg) (stack store : Bool) : Prop where
  refl : ∀ s, R s s
  trans : ∀ a b c, R a b → R b c → R a c
  reg : ∀ s r v, r ∈ L → R s (s.setReg r v)
  fsz : stack = true → ∀ s v, R s (s.setFsz v)
  mem : store = true → ∀ s a v, a + 1 < s.cfg.memSize → R s (s.setMem (s.mem.setWord a v))

theorem holds_of_ok {α : Type} {P : State → Prop} {r : EStateM.Result Fault State α} {a : α} {t : State}
    (h : r = .ok a t) (hP : P t) : (∀ b u, r = .ok b u → P u) ∧ ∀ e u, r = .error e u → P u := by
  subst h; simp [hP]

theorem holds_of_error {α : Type} {P : State → Prop} {r : EStateM.Result Fault State α} {e : Fault} {t : State}
    (h : r = .error e t) (hP : P t) : (∀ b u, r = .ok b u → P u) ∧ ∀ e u, r = .error e u → P u := by
  subst h; simp [hP]

section
variable {R : State → State → Prop} {L : List Reg} {stack store : Bool} (A : Allows R L stack store)
include A

/-- An operation whose every end is the state it began in. -/
theorem ends_of_same {α : Type} {op : Op α} (h : ∀ s, (∃ a, op s = .ok a s) ∨ ∃ e, op s = .error e s) : Ends R op := by
  intro s
  rcases h s with ⟨a, h⟩ | ⟨e, h⟩
  · exact holds_of_ok h (A.refl s)
  · exact holds_of_error h (A.refl s)

theorem ends_bind {α β : Type} {x : Op α} {f : α → Op β} (hx : Ends R x) (hf : ∀ a, Ends R (f a)) : Ends R (x >>= f) := by
  intro s
  cases h : x s with
  | ok a t =>
    have h1 := (hx s).1 a t h
    rw [op_bind, h]
    exact ⟨fun b u hb => A.trans _ _ _ h1 ((hf a t).1 b u hb), fun e u hb => A.trans _ _ _ h1 ((hf a t).2 e u hb)⟩
  | error e t => exact holds_of_error (by rw [op_bind, h]) ((hx s).2 e t h)

theorem ends_pure {α : Type} (a : α) : Ends R (pure a : Op α) := ends_of_same A fun _ => .inl ⟨a, rfl⟩
theorem ends_throw {α : Type} (e : Fault) : Ends R (throw e : Op α) := ends_of_same A fun _ => .inr ⟨e, rfl⟩
theorem ends_readReg (r : Reg) : Ends R (readReg r) := ends_of_same A fun s => .inl ⟨s.reg r, rfl⟩
theorem ends_readFsz : Ends R readFsz := ends_of_same A fun s => .inl ⟨s.fsz, rfl⟩
theorem ends_reloadAdj : Ends R reloadAdj := ends_of_same A fun s => .inl ⟨s.cfg.fszReloadAdj.amount, rfl⟩
theorem ends_policy : Ends R unknownOpcodePolicy := ends_of_same A fun s => .inl ⟨s.cfg.unknownOpcode, rfl⟩
theorem ends_memRead8 (a : Nat) : Ends R (memRead8 a) := ends_of_same A fun s => by
  rw [memRead8_eq]; split_ifs; exacts [.inl ⟨_, rfl⟩, .inr ⟨_, rfl⟩]
theorem ends_memRead16 (a : Nat) : Ends R (memRead16 a) := ends_of_same A fun s => by
  rw [memRead16_eq]; split_ifs; exacts [.inl ⟨_, rfl⟩, .inr ⟨_, rfl⟩]
theorem ends_checkUnderflow (n : Nat) : Ends R (checkUnderflow n) := ends_of_same A fun s => by
  unfold checkUnderflow; split_ifs; exacts [.inr ⟨_, rfl⟩, .inl ⟨_, rfl⟩]

theorem ends_writeReg {r : Reg} (hr : r ∈ L) (v : Word) : Ends R (writeReg r v) :=
  fun s => holds_of_ok (writeReg_eq r v s) (A.reg s r v hr)
theorem ends_writeFsz (hs : stack = true) (v : Word) : Ends R (writeFsz v) :=
  fun s => holds_of_ok (writeFsz_eq v s) (A.fsz hs s v)
theorem ends_memWrite16 (hm : store = true) (a : Nat) (v : Word) : Ends R (memWrite16 a v) := by
  intro s
  by_cases hh : a + 1 < s.cfg.memSize
  · exact holds_of_ok ((memWrite16_eq a v s).trans (if_pos hh)) (A.mem hm s a v hh)
  · exact holds_of_error ((memWrite16_eq a v s).trans (if_neg hh)) (A.refl s)

theorem ends_push (hs : stack = true) (hm : store = true) (hl : .sp ∈ L) (v : Word) : Ends R (push v) :=
  ends_bind A (ends_readReg A _) fun _ => ends_bind A (ends_memWrite16 A hm _ _) fun _ =>
  ends_bind A (ends_writeReg A hl _) fun _ => ends_bind A (ends_readFsz A) fun _ => ends_writeFsz A hs _

theorem ends_pop (hs : stack = true) (hl : .sp ∈ L) : Ends R pop :=
  ends_bind A (ends_readReg A _) fun _ => ends_bind A (ends_checkUnderflow A _) fun _ =>
  ends_bind A (ends_writeReg A hl _) fun _ => ends_bind A (ends_memRead16 A _) fun _ =>
  ends_bind A (ends_readFsz A) fun _ => ends_bind A (ends_writeFsz A hs _) fun _ => ends_pure A _

theorem ends_pushRegs (hs : stack = true) (hm : store = true) (hl : .sp ∈ L) (rs : List Reg) : Ends R (pushRegs rs) := by
  induction rs with
  | nil => exact ends_pure A _
  | cons r rs ih => exact ends_bind A (ends_readReg A _) fun _ => ends_bind A (ends_push A hs hm hl _) fun _ => ih

theorem ends_popRegs (hs : stack = true) (hl : .sp ∈ L) (rs : List Reg) (hrs : ∀ r ∈ rs, r ∈ L) : Ends R (popRegs rs) := by
  induction rs with
  | nil => exact ends_pure A _
  | cons r rs ih =>
    rw [List.forall_mem_cons] at hrs
    exact ends_bind A (ends_pop A hs hl) fun _ => ends_bind A (ends_writeReg A hrs.1 _) fun _ => ih hrs.2

theorem ends_discard (hs : stack = true) (hl : .sp ∈ L) (n : Nat) : Ends R (discard n) := by
  induction n with
  | zero => exact ends_pure A _
  | succ n ih => exact ends_bind A (ends_pop A hs hl) fun _ => ih

theorem ends_pushState (hs : stack = true) (hm : store = true) (hl : .sp ∈ L) (hf : .fp ∈ L) : Ends R pushState :=
  ends_bind A (ends_pushRegs A hs hm hl _) fun _ => ends_bind A (ends_readFsz A) fun _ =>
  ends_bind A (ends_push A hs hm hl _) fun _ => ends_bind A (ends_readReg A _) fun _ =>
  ends_bind A (ends_writeReg A hf _) fun _ => ends_writeFsz A hs _

theorem ends_popState (hs : stack = true) (hl : .sp ∈ L) (hf : .fp ∈ L) (hr : ∀ r ∈ savedRegs.reverse, r ∈ L) :
    Ends R popState :=
  ends_bind A (ends_readReg A _) fun _ => ends_bind A (ends_writeReg A hl _) fun _ =>
  ends_bind A (ends_pop A hs hl) fun _ => ends_bind A (ends_reloadAdj A) fun _ =>
  ends_bind A (ends_writeFsz A hs _) fun _ => ends_bind A (ends_popRegs A hs hl _ hr) fun _ =>
  ends_bind A (ends_pop A hs hl) fun _ => ends_bind A (ends_discard A hs hl _) fun _ => ends_writeReg A hf _

theorem runInstr_ends (hip : .ip ∈ L) (i : Instr) {e : Op Unit} (he : Ends R e) (s : State) :
    (∃ t, R s t ∧ runInstr i e s = .next t) ∨
    ∃ f t, R s t ∧ runInstr i e s = .next (raise f (s.reg .ip) (some (opcodeOf s.cfg.opc i)) t) := by
  have h0 : R s (advanceIp (instrLength i) s) := A.reg s .ip _ hip
  rcases runInstr_cases i e s with ⟨t, h1, h2⟩ | ⟨f, t, h1, h2⟩
  · exact .inl ⟨t, A.trans _ _ _ h0 ((he _).1 _ _ h1), h2⟩
  · exact .inr ⟨f, t, A.trans _ _ _ h0 ((he _).2 _ _ h1), h2⟩

end

/-- The instruction writes memory. -/
def mayStore : Instr → Bool
  | .movLitReg _ _ => false
  | .movRegReg _ _ => false
  | .movRegMem _ _ => true
  | .movMemReg _ _ => false
  | .addRegReg _ _ => false
  | .jmpNotEq _ _ => false
  | .pshLit _ => true
  | .pshReg _ => true
  | .pop _ => false
  | .calLit _ => true
  | .calReg _ => true
  | .ret => false
  | .unknownOpcode _ => false

/-- A relation that respects every write the instruction may make holds from before it to its end; what a raise adds is
the latch alone. -/
theorem exec_ends {R : State → State → Prop} {L : List Reg} {stack store : Bool} (A : Allows R L stack store) (i : Instr)
    (hL : ∀ r ∈ writtenRegs i, r ∈ L) (hst : usesStack i = true → stack = true) (hso : mayStore i = true → store = true)
    (s : State) :
    (∃ t, R s t ∧ exec i s = .next t) ∨
    ∃ f t, R s t ∧ exec i s = .next (raise f (s.reg .ip) (some (opcodeOf s.cfg.opc i)) t) := by
  have hip : .ip ∈ L := hL _ (by cases i <;> simp [writtenRegs])
  cases i <;>
    simp only [exec, execMovLitReg, execMovRegReg, execMovRegMem, execMovMemReg, execAddRegReg, execJmpNotEq, execPshLit,
      execPshReg, execPop, execCalLit, execCalReg, execRet, execUnknownOpcode] <;>
    simp only [writtenRegs, List.forall_mem_cons] at hL <;> apply runInstr_ends A hip
  case movLitReg => exact ends_writeReg A hL.2.1 _
  case movRegReg => exact ends_bind A (ends_readReg A _) fun _ => ends_writeReg A hL.2.1 _
  case movRegMem => exact ends_bind A (ends_readReg A _) fun _ => ends_memWrite16 A (hso rfl) _ _
  case movMemReg => exact ends_bind A (ends_memRead16 A _) fun _ => ends_writeReg A hL.2.1 _
  case addRegReg =>
    exact ends_bind A (ends_readReg A _) fun _ => ends_bind A (ends_readReg A _) fun _ => ends_writeReg A hL.2.1 _
  case jmpNotEq =>
    refine ends_bind A (ends_readReg A _) fun _ => ?_
    split_ifs
    exacts [ends_writeReg A hip _, ends_pure A _]
  case pshLit => exact ends_push A (hst rfl) (hso rfl) hL.2.1 _
  case pshReg => exact ends_bind A (ends_readReg A _) fun _ => ends_push A (hst rfl) (hso rfl) hL.2.1 _
  case pop => exact ends_bind A (ends_pop A (hst rfl) hL.2.1) fun _ => ends_writeReg A hL.2.2.1 _
  case calLit =>
    exact ends_bind A (ends_pushState A (hst rfl) (hso rfl) hL.2.1 hL.2.2.1) fun _ => ends_writeReg A hip _
  case calReg =>
    exact ends_bind A (ends_readReg A _) fun _ =>
      ends_bind A (ends_pushState A (hst rfl) (hso rfl) hL.2.1 hL.2.2.1) fun _ => ends_writeReg A hip _
  case ret =>
    refine ends_popState A (hst rfl) hL.2.1 hL.2.2.1 fun r hr => ?_
    obtain ⟨h0, h1, h2, h3, h4, h5, h6, h7, h8, h9, h10, -⟩ := hL
    simp only [savedRegs, List.reverse_cons, List.reverse_nil, List.nil_append, List.cons_append, List.mem_cons,
      List.mem_nil_iff, or_false] at hr
    rcases hr with rfl | rfl | rfl | rfl | rfl | rfl | rfl | rfl | rfl <;> assumption
  case unknownOpcode =>
    refine ends_bind A (ends_policy A) fun p => ?_
    cases p
    exacts [ends_pure A _, ends_throw A _]

end Sys2Proof.Machine
end

