-- ==== Sys2Proof/Laws/Fetch.lean ====
section
/-! SUPPORT. Everything the fetch helpers can do (spec/40_engine.md R72 to R74). -/

namespace Sys2Proof.Machine

theorem fetch8_eq (s : State) :
    fetch8 s = if (s.reg .ip).toNat < s.cfg.memSize
      then .ok (s.mem.byte (s.reg .ip).toNat) (s.setReg .ip (s.reg .ip + 1))
      else .error (.outOfBounds (s.reg .ip).toNat 1 .read) s := by
  simp only [fetch8, op_bind, readReg_eq, memRead8, State.inRange, Nat.add_sub_cancel, decide_eq_true_eq]
  by_cases h : (s.reg .ip).toNat < s.cfg.memSize <;> simp [h]

theorem fetch16_eq (s : State) :
    fetch16 s = if (s.reg .ip).toNat + 1 < s.cfg.memSize
      then .ok (s.mem.word (s.reg .ip).toNat) (s.setReg .ip (s.reg .ip + 2))
      else .error (.outOfBounds (s.reg .ip).toNat 2 .read) s := by
  simp only [fetch16, op_bind, readReg_eq, memRead16, State.inRange, decide_eq_true_eq]
  by_cases h : (s.reg .ip).toNat + 1 < s.cfg.memSize <;> simp [h]

theorem fetchReg_eq (s : State) :
    fetchReg s = if (s.reg .ip).toNat < s.cfg.memSize
      then .ok (regOfSelector (s.mem.byte (s.reg .ip).toNat)) (s.setReg .ip (s.reg .ip + 1))
      else .error (.outOfBounds (s.reg .ip).toNat 1 .read) s := by
  simp only [fetchReg, op_bind, fetch8_eq]
  split_ifs <;> rfl

end Sys2Proof.Machine
end

