-- ==== Sys2Proof/Laws/PerInstr.lean ====
section
/-! SUPPORT. One family of statements about an instruction as syntax: its encoding is as long as its format says
(spec/30_encoding.md R50, R53). -/

namespace Sys2Proof.Laws.EncodeLength

/-- The bytes of the instruction, under every opcode map, are as many as its format says. -/
def Statement (i : Instr) : Prop := ∀ o : Opc, (encode o i).length = instrLength i

theorem movLitReg (lit : Word) (reg : Reg) : Statement (.movLitReg lit reg) := fun _ => rfl
theorem movRegReg (regFrom regTo : Reg) : Statement (.movRegReg regFrom regTo) := fun _ => rfl
theorem movRegMem (regFrom : Reg) (addr : Word) : Statement (.movRegMem regFrom addr) := fun _ => rfl
theorem movMemReg (addr : Word) (regTo : Reg) : Statement (.movMemReg addr regTo) := fun _ => rfl
theorem addRegReg (regA regB : Reg) : Statement (.addRegReg regA regB) := fun _ => rfl
theorem jmpNotEq (val addr : Word) : Statement (.jmpNotEq val addr) := fun _ => rfl
theorem pshLit (lit : Word) : Statement (.pshLit lit) := fun _ => rfl
theorem pshReg (reg : Reg) : Statement (.pshReg reg) := fun _ => rfl
theorem pop (reg : Reg) : Statement (.pop reg) := fun _ => rfl
theorem calLit (addr : Word) : Statement (.calLit addr) := fun _ => rfl
theorem calReg (reg : Reg) : Statement (.calReg reg) := fun _ => rfl
theorem ret : Statement .ret := fun _ => rfl
theorem unknownOpcode (byte : Byte) : Statement (.unknownOpcode byte) := fun _ => rfl

end Sys2Proof.Laws.EncodeLength
end

