-- ==== Sys2Proof/Laws/Run.lean ====
section
/-! SUPPORT. What a run does at each step request (spec/70_reset_and_hazards.md R156). -/

namespace Sys2Proof.Machine

@[simp] theorem met_afterSteps (k taken : Nat) (s : State) : (EndRule.afterSteps k).met taken s = (taken == k) := rfl
@[simp] theorem met_atAddress (a : Word) (taken : Nat) (s : State) : (EndRule.atAddress a).met taken s = (s.reg .ip == a) := rfl

@[simp] theorem halted_eq_false (s : State) : halted s = false ↔ s.fault = none := by
  cases h : s.fault <;> simp [halted, h]
@[simp] theorem halted_eq_true (s : State) : halted s = true ↔ s.fault ≠ none := by
  cases h : s.fault <;> simp [halted, h]

@[simp] theorem stepMany_zero (s : State) : stepMany 0 s = s := rfl
theorem stepMany_succ (n : Nat) (s : State) : stepMany (n + 1) s = stepMany n (serve .step s).2 := rfl

/-- Any number of step requests leaves a halted machine as it is (spec/60_exceptions.md R127). -/
theorem stepMany_of_halted (n : Nat) (s : State) (h : s.fault ≠ none) : stepMany n s = s := by
  have hstep : (serve .step s).2 = s := by
    have : step s = .next s := if_pos ((halted_eq_true s).2 h)
    simp only [serve, this]
  induction n with
  | zero => rfl
  | succ n ih => rw [stepMany_succ, hstep, ih]

section
variable {rule : EndRule} {budget taken : Nat} {s : State}

theorem runFrom_of_halted (h : s.fault ≠ none) : runFrom rule budget taken s = .halted s := by
  unfold runFrom; exact if_pos ((halted_eq_true s).2 h)

theorem runFrom_of_met (h : s.fault = none) (hm : rule.met taken s = true) : runFrom rule budget taken s = .success s := by
  unfold runFrom; simp [(halted_eq_false s).2 h, hm]

theorem runFrom_zero (h : s.fault = none) (hm : rule.met taken s = false) : runFrom rule 0 taken s = .stopped s := by
  simp [runFrom, (halted_eq_false s).2 h, hm]

theorem runFrom_succ (h : s.fault = none) (hm : rule.met taken s = false) :
    runFrom rule (budget + 1) taken s = runFrom rule budget (taken + 1) (serve .step s).2 := by
  rw [runFrom, (halted_eq_false s).2 h, hm]; rfl

end

end Sys2Proof.Machine
end

