-- ==== Sys2Proof/Tests/Slice0.lean ====
section
/-! SUPPORT. Tests of the model against spec/95_test_vectors.md (each names its vector; expected values are the spec's), the
smoke tests of the well-formedness checks, and a witness for every statement that has hypotheses. -/

namespace Sys2Proof.Tests

open Machine

/-! ### Helpers -/

/-- The parameters of the test vectors: 256 bytes, the default map (V: "fresh machine of size 256"). -/
def cfg256 : Config := { resetConfig with memSize := 256 }

/-- A fresh machine of size 256 with bytes placed at an address, which is also where `ip` stands. -/
def fresh (a : Word) (bytes : List Byte) : State :=
  (State.afterReset cfg256 (placeBytes 256 { cells := [] } a bytes)).setReg .ip a

/-- The next state of an outcome. -/
def nextOf (o : Host.Outcome State Fault Refusal) : Option State :=
  match o with
  | .next t => some t
  | .fault _ => none
  | .refused _ => none

/-- An outcome that evaluates to a next state with a property. -/
theorem next_of {o : Host.Outcome State Fault Refusal} (P : State → Prop) [DecidablePred P]
    (h : (nextOf o).any (fun t => decide (P t)) = true) : ∃ t, o = .next t ∧ P t := by
  cases o with
  | next t => exact ⟨t, rfl, by simpa [nextOf] using h⟩
  | fault f => simp [nextOf] at h
  | refused r => simp [nextOf] at h

/-- Some registers and `FSZ` after one step. -/
def regsAfter (s : State) (rs : List Reg) : Option (List Word × Word) :=
  (nextOf (step s)).map fun t => (rs.map t.reg, t.fsz)

/-- A word of memory and the latch after one step. -/
def wordAfter (s : State) (a : Nat) : Option (Word × Option FaultRecord) :=
  (nextOf (step s)).map fun t => (t.mem.word a, t.fault)

/-- The instruction at the front of some bytes, under the default map. -/
def decoded (bytes : List Byte) : Option (Instr × List Byte) :=
  match decode defaultOpc bytes with
  | .ok r => some r
  | .error _ => none

/-! ### Well-formedness: each check refuses an ill-formed term -/

theorem test_wf_refuses_known_byte_as_unknown : Instr.wf defaultOpc (.unknownOpcode 0x10) = false := by decide
theorem test_wf_accepts_unknown_byte : Instr.wf defaultOpc (.unknownOpcode 0x16) = true := by decide
theorem test_wf_refuses_size_1 : Config.wf { resetConfig with memSize := 1 } = false := by decide
theorem test_wf_refuses_size_65537 : Config.wf { resetConfig with memSize := 65537 } = false := by decide
theorem test_wf_accepts_size_2 : Config.wf { resetConfig with memSize := 2 } = true := by decide
theorem test_wf_refuses_shared_opcode : Config.wf { resetConfig with opc := { defaultOpc with ret := 0x10 } } = false := by
  decide
theorem test_memory_form_refuses_zero_byte : Memory.wf { cells := [(4, 0x00)] } = false := by decide
theorem test_memory_form_refuses_disorder : Memory.wf { cells := [(4, 0x01), (4, 0x02)] } = false := by decide
theorem test_inv_refuses_cell_outside : State.inv { fresh 0 [] with mem := { cells := [(256, 0x01)] } } = false := by decide
theorem test_inv_refuses_unknownRegister_record : State.inv
    { fresh 0 [] with fault := some { cause := .unknownRegister "r9", instrAddr := 0, opcode := none } } = false := by decide

/-! ### Decoding: words written out from spec/30_encoding.md R57 and spec/95_test_vectors.md -/

theorem test_decode_movLitReg : decoded [0x10, 0xBE, 0xEF, 0x02] = some (.movLitReg 0xBEEF .r1, []) := by decide -- V1
theorem test_decode_selector_255 : decoded [0x10, 0xBE, 0xEF, 0xFF] = some (.movLitReg 0xBEEF .r2, []) := by decide -- V3
theorem test_decode_movRegReg : decoded [0x11, 0x02, 0x00] = some (.movRegReg .r1 .ip, []) := by decide -- V7
theorem test_decode_movRegMem : decoded [0x12, 0x03, 0x00, 0x81] = some (.movRegMem .r2 0x0081, []) := by decide -- V9
theorem test_decode_movMemReg : decoded [0x13, 0x00, 0x01, 0x03] = some (.movMemReg 0x0001 .r2, []) := by decide -- V12
theorem test_decode_addRegReg : decoded [0x14, 0x0E, 0x1B] = some (.addRegReg .r1 .r2, []) := by decide -- V21
theorem test_decode_jmpNotEq : decoded [0x15, 0x00, 0x03, 0x01, 0x00] = some (.jmpNotEq 0x0003 0x0100, []) := by
  decide -- V25
theorem test_decode_pshLit : decoded [0x17, 0x12, 0x34, 0x18] = some (.pshLit 0x1234, [0x18]) := by decide -- V27
theorem test_decode_pshReg : decoded [0x18, 0x0A] = some (.pshReg .sp, []) := by decide -- V27
theorem test_decode_pop : decoded [0x1A, 0x0A] = some (.pop .sp, []) := by decide -- V27
theorem test_decode_calLit : decoded [0x5E, 0x00, 0x20] = some (.calLit 0x0020, []) := by decide -- V36
theorem test_decode_calReg : decoded [0x5F, 0x0B] = some (.calReg .fp, []) := by decide -- V34
theorem test_decode_ret : decoded [0x60, 0x11] = some (.ret, [0x11]) := by decide -- V36
theorem test_decode_unknown : decoded [0x00, 0x10] = some (.unknownOpcode 0x00, [0x10]) := by decide -- V32
theorem test_decode_refuses_truncated : decoded [0x15, 0x00, 0x03, 0x01] = none := by decide
theorem test_decode_refuses_no_bytes : decoded [] = none := by decide

/-- The table numbers bits from the first byte: `10 12 34 02` is the word 0x02341210 (P1, step 1). -/
theorem test_decodeTableWord : decodeTableWord 32 0x02341210 = some (.movLitReg 0x1234 .r1) := by decide
theorem test_decodeTableWord_masks : decodeTableWord 8 0xFFFF60 = some .ret := by decide

/-- The listing of R60: registers by name, a selector byte above 0x0B as the raw byte. -/
theorem test_listing : listing defaultOpc [0x10, 0x12, 0x34, 0x02] = some "MOV_LIT_REG 0x1234 r1" := by decide
theorem test_listing_raw_selector : listing defaultOpc [0x14, 0x0E, 0x02] = some "ADD_REG_REG #0x0E r1" := by decide

/-! ### One step of each instruction, from spec/95_test_vectors.md part 2 -/

-- V1 and V4
theorem test_movLitReg : regsAfter (fresh 0 [0x10, 0xBE, 0xEF, 0x02]) [.r1, .r2, .ip] = some ([0xBEEF, 0, 4], 0) := by decide
theorem test_movLitReg_ip : regsAfter (fresh 0 [0x10, 0xBE, 0xEF, 0x0C]) [.ip, .r1] = some ([0xBEEF, 0], 0) := by decide
-- V6 and V7
theorem test_movRegReg_from_ip : regsAfter (fresh 0x20 [0x11, 0x00, 0x02]) [.r1, .ip] = some ([0x23, 0x23], 0) := by decide
theorem test_movRegReg_to_ip :
    regsAfter ((fresh 0 [0x11, 0x02, 0x00]).setReg .r1 0x40) [.ip, .r1] = some ([0x40, 0x40], 0) := by decide
-- V10 and V11
theorem test_movRegMem_last_word :
    wordAfter ((fresh 0 [0x12, 0x03, 0x00, 0xFE]).setReg .r2 0xA1B2) 0xFE = some (0xA1B2, none) := by decide
theorem test_movRegMem_out_of_bounds :
    wordAfter ((fresh 0 [0x12, 0x03, 0x00, 0xFF]).setReg .r2 0xA1B2) 0xFE =
      some (0, some { cause := .outOfBounds 255 2 .write, instrAddr := 0, opcode := some 0x12 }) := by decide
-- V12
theorem test_movMemReg : regsAfter (fresh 0 [0x13, 0x00, 0x01, 0x03]) [.r2, .ip] = some ([1, 4], 0) := by decide
-- V16 and V20
theorem test_addRegReg_wraps :
    regsAfter (((fresh 0 [0x14, 0x02, 0x03]).setReg .r1 0xFFFF).setReg .r2 0xFFFF) [.acc, .r1, .ip] =
      some ([0xFFFE, 0xFFFF, 3], 0) := by decide
theorem test_addRegReg_ip : regsAfter ((fresh 0x10 [0x14, 0x00, 0x02]).setReg .r1 1) [.acc, .ip] = some ([0x14, 0x13], 0) := by
  decide
-- V23 and V24
theorem test_jmpNotEq_not_taken :
    regsAfter ((fresh 0x0F [0x15, 0x00, 0x03, 0x00, 0x80]).setReg .acc 3) [.ip] = some ([0x14], 0) := by decide
theorem test_jmpNotEq_taken :
    regsAfter ((fresh 0x0F [0x15, 0x00, 0x03, 0x00, 0x80]).setReg .acc 0x300) [.ip] = some ([0x80], 0) := by decide
-- V27, step 1
theorem test_pshLit : regsAfter (fresh 0 [0x17, 0x12, 0x34]) [.ip, .sp] = some ([3, 0xFC], 2) := by decide
theorem test_pshLit_word : wordAfter (fresh 0 [0x17, 0x12, 0x34]) 0xFE = some (0x1234, none) := by decide
-- V27, steps 2 and 3: `sp` before the decrement, `ip` after the fetches
theorem test_pshReg_sp : wordAfter (fresh 3 [0x18, 0x0A]) 0xFE = some (0x00FE, none) := by decide
theorem test_pshReg_ip : wordAfter (fresh 5 [0x18, 0x00]) 0xFE = some (0x0007, none) := by decide
-- V29 and V32 (a pop from an empty stack)
theorem test_pop : regsAfter ((fresh 0 [0x1A, 0x02]).setReg .sp 0xF0) [.r1, .sp, .ip] = some ([0, 0xF2, 2], 0xFFFE) := by decide
theorem test_pop_underflow : wordAfter (fresh 0 [0x1A, 0x02]) 0xFE =
    some (0, some { cause := .stackUnderflow 256, instrAddr := 0, opcode := some 0x1A }) := by decide
-- S4, step 2: after PSH_LIT 0 at address 0, so `sp` is 0x00FC and `FSZ` is 2
theorem test_calLit : regsAfter (((fresh 3 [0x5E, 0x00, 0x20]).setReg .sp 0xFC).setFsz 2) [.ip, .sp, .fp] =
    some ([0x20, 0xE8, 0xE8], 0) := by decide +kernel
theorem test_calLit_size_word : wordAfter (((fresh 3 [0x5E, 0x00, 0x20]).setReg .sp 0xFC).setFsz 2) 0xEA =
    some (0x16, none) := by decide +kernel
-- V33 and V35
theorem test_calReg_sp : regsAfter (((fresh 3 [0x5F, 0x0A]).setReg .sp 0xFC).setFsz 2) [.ip, .sp] =
    some ([0xFC, 0xE8], 0) := by decide +kernel
theorem test_calReg_ip : wordAfter (((fresh 3 [0x5F, 0x00]).setReg .sp 0xFC).setFsz 2) 0xEC = some (0x0005, none) := by decide +kernel

/-- The frame of V36 (and of S4, with the count `n`): return address 6, size word 0x16, `fp = 0xE8`, RET at 0x20. -/
def inCall (n : Byte) : State :=
  let s := ((fresh 0x20 [0x60]).setReg .sp 0xE8).setReg .fp 0xE8
  s.setMem (((s.mem.setByte 0xEB 0x16).setByte 0xED 0x06).setByte 0xFF n)

-- S4, step 3 (with FSZ_RELOAD_ADJ 0) and V36, step 3
theorem test_ret : regsAfter (inCall 0) [.ip, .sp, .fp] = some ([6, 0xFE, 0xFE], 2) := by decide +kernel
theorem test_ret_underflow : (nextOf (step (inCall 5))).map (fun t => ([t.reg .ip, t.reg .sp, t.reg .fp], t.fsz, t.fault)) =
    some ([6, 0xFE, 0xE8], 2, some { cause := .stackUnderflow 256, instrAddr := 0x20, opcode := some 0x60 }) := by decide +kernel
-- V32
theorem test_unknownOpcode : regsAfter (fresh 0 [0x00]) [.ip, .sp] = some ([1, 0xFE], 0) := by decide +kernel

/-! ### Reset, the fetch and the host (S1, S2, V25) -/

theorem test_reset_sp : (State.reset.reg .sp, State.reset.reg .fp, State.reset.reg .ip) = (0xFFFE, 0xFFFE, 0) := by decide
theorem test_reset_odd_size :
    ((State.afterReset { resetConfig with memSize := 255 } { cells := [] }).reg .sp).toNat = 0xFD := by decide
theorem test_fetch_outside : (nextOf (step (fresh 0x100 []))).map (fun t => (t.reg .ip, t.fault)) =
    some (0x100, some { cause := .outOfBounds 256 1 .read, instrAddr := 0x100, opcode := none }) := by decide
theorem test_host_round_trip :
    (serve (.getReg (hostName "r3")) (serve (.setReg (hostName "r3") 0x12345) State.reset).2).1 = .word 0x2345 := by decide
theorem test_host_unknown_register :
    (serve (.setReg (hostName "r9") 1) State.reset).1 = .condition (.unknownRegister "r9") := by decide
theorem test_causeCode : [causeCode (.unknownRegister "r9"), causeCode (.outOfBounds 256 1 .read), causeCode (.unknownOpcode 0),
    causeCode (.stackUnderflow 256)] = [1, 2, 3, 4] := by decide -- R123
theorem test_withFetchWord : regsAfter (State.reset.withFetchWord 32 0x02341210) [.r1, .ip] = some ([0x1234, 4], 0) := by
  decide

/-! ### The end of a run (R156): unknown bytes from address 0 -/

/-- How a run ended and where `ip` stands. -/
def runSummary (e : RunEnd) : Nat × Word :=
  (match e with | .success _ => 0 | .halted _ => 1 | .stopped _ => 2, e.state.reg .ip)

/-- Three unknown bytes, each a one-byte no-op (R106): `ip` reaches 2 after two steps. -/
theorem test_run_ends_at_address : runSummary (run (.atAddress 2) 5 (fresh 0 [0, 0, 0])) = (0, 2) := by decide +kernel
theorem test_run_ends_after_steps : runSummary (run (.afterSteps 2) 5 (fresh 0 [0, 0, 0])) = (0, 2) := by decide +kernel
/-- A fetch outside memory halts the machine, and a halted machine is no success even where the rule is met. -/
theorem test_run_fault_is_no_success : runSummary (run (.afterSteps 1) 5 (fresh 0x100 [])) = (1, 0x100) := by decide +kernel
theorem test_run_stops_at_budget : runSummary (run (.atAddress 4) 3 (fresh 0 [0, 0, 0])) = (2, 3) := by decide +kernel

/-! ### Witnesses: concrete states and operands that meet the hypotheses of each statement -/

theorem codeIs_intro {s : State} {i : Instr} {rest : List Byte}
    (h : decode s.cfg.opc (codeBytes s.mem 5 (s.reg .ip)) = .ok (i, rest)) : CodeIs s i := ⟨rest, h⟩

theorem witness_DecodeReadsBackEncode : defaultOpc.injective = true ∧
    Instr.wf defaultOpc (.jmpNotEq 0xFFFF 0) = true ∧ Instr.wf defaultOpc (.unknownOpcode 0xFF) = true := by decide
theorem witness_AnyFiveBytesDecode : 5 ≤ ([0x15, 0, 0, 0, 0] : List Byte).length := by decide
theorem witness_SelectorsReduceModuloTwelve : defaultOpc.injective = true := by decide
theorem witness_SixteenBitOperandsAreBigEndian : defaultOpc.injective = true := by decide
theorem witness_UnknownBytesAreOneByteInstructions : (0x00 : Byte) ∉ defaultOpc.bytes ∧ (0x16 : Byte) ∉ defaultOpc.bytes := by
  decide

/-- The last byte of memory is fetched, the next address is not. -/
theorem witness_FetchByteAndSelectorAdvanceIp :
    ((fresh 0xFF []).reg .ip).toNat < (fresh 0xFF []).cfg.memSize ∧
    (fresh 0x100 []).cfg.memSize ≤ ((fresh 0x100 []).reg .ip).toNat := by decide
theorem witness_FetchWordAdvancesIpByTwo :
    ((fresh 0xFE []).reg .ip).toNat + 1 < (fresh 0xFE []).cfg.memSize ∧
    (fresh 0xFF []).cfg.memSize ≤ ((fresh 0xFF []).reg .ip).toNat + 1 := by decide

/-- MOV_LIT_REG in the last four bytes of memory: every fetch is in range. -/
theorem witness_StepRunsTheDecodedInstruction :
    let s := fresh 0xFC [0x10, 0x12, 0x34, 0x02]
    s.cfg.wf = true ∧ s.fault = none ∧ CodeIs s (.movLitReg 0x1234 .r1) ∧
      ∀ x ∈ fetchAccesses (s.reg .ip) (.movLitReg 0x1234 .r1), x.fits s.cfg.memSize = true :=
  ⟨by decide, by decide, codeIs_intro rfl, by decide⟩

/-- A running machine whose bytes at `ip` are `i` and whose first fetch out of range is `x`. -/
def FetchFails (s : State) (i : Instr) (x : Access) : Prop :=
  s.fault = none ∧ CodeIs s i ∧ firstBad s.cfg.memSize (fetchAccesses (s.reg .ip) i) = some x

/-- The same instruction one byte later: its selector byte is the first fetch out of range. -/
theorem witness_FetchRaisesAtItsFirstBadAccess : FetchFails (fresh 0xFD [0x10, 0x12, 0x34]) (.movLitReg 0x1234 .ip)
    { addr := 0x100, width := 1, kind := .read } := ⟨by decide, codeIs_intro rfl, by decide⟩

/-! The fetch clause of the instruction statements, each at the last place where its bytes do not fit. -/

theorem witness_MovLitRegWritesTheLiteral : FetchFails (fresh 0xFE [0x10, 0x12]) (.movLitReg 0x1200 .ip)
    { addr := 0xFF, width := 2, kind := .read } := ⟨by decide, codeIs_intro rfl, by decide⟩
theorem witness_MovRegRegCopiesTheRegister : FetchFails (fresh 0xFE [0x11, 0x02]) (.movRegReg .r1 .ip)
    { addr := 0x100, width := 1, kind := .read } := ⟨by decide, codeIs_intro rfl, by decide⟩
theorem witness_MovRegMemStoresTheWord_fetch : FetchFails (fresh 0xFD [0x12, 0x02, 0x01]) (.movRegMem .r1 0x0100)
    { addr := 0xFF, width := 2, kind := .read } := ⟨by decide, codeIs_intro rfl, by decide⟩
theorem witness_AddRegRegSumsIntoAcc : FetchFails (fresh 0xFF [0x14]) (.addRegReg .ip .ip)
    { addr := 0x100, width := 1, kind := .read } := ⟨by decide, codeIs_intro rfl, by decide⟩
theorem witness_JmpNotEqJumpsWhenAccDiffers_fetch : FetchFails (fresh 0xFC [0x15, 0, 1, 0]) (.jmpNotEq 1 0)
    { addr := 0xFF, width := 2, kind := .read } := ⟨by decide, codeIs_intro rfl, by decide⟩
theorem witness_PshLitPushesTheLiteral_fetch : FetchFails (fresh 0xFE [0x17, 0x44]) (.pshLit 0x4400)
    { addr := 0xFF, width := 2, kind := .read } := ⟨by decide, codeIs_intro rfl, by decide⟩
theorem witness_PopReadsTheWordAboveSp_fetch : FetchFails (fresh 0xFF [0x1A]) (.pop .ip)
    { addr := 0x100, width := 1, kind := .read } := ⟨by decide, codeIs_intro rfl, by decide⟩
theorem witness_CalLitPushesTheFrameAndJumps_fetch : FetchFails (fresh 0xFE [0x5E, 0x00]) (.calLit 0)
    { addr := 0xFF, width := 2, kind := .read } := ⟨by decide, codeIs_intro rfl, by decide⟩

/-- A halted machine, the one `test_fetch_outside` ends in. -/
def haltedMachine : State :=
  (fresh 0x100 []).setFault (some { cause := .outOfBounds 256 1 .read, instrAddr := 0x100, opcode := none })

theorem witness_HaltedMachineStaysHaltedUntilReset :
    haltedMachine.fault = some { cause := .outOfBounds 256 1 .read, instrAddr := 0x100, opcode := none } ∧
    HostRequest.step ≠ .reset := by decide
theorem witness_FaultRecordNamesTheInstruction :
    (fresh 0x100 []).fault = none ∧ step (fresh 0x100 []) = .next haltedMachine ∧
    haltedMachine.fault = some { cause := .outOfBounds 256 1 .read, instrAddr := 0x100, opcode := none } :=
  ⟨by decide, rfl, by decide⟩
theorem witness_RegisterWriteChangesOneRegister : (11 : Nat) < 12 := by decide
theorem witness_AccessesInRangeReadAndWriteBigEndian :
    255 < (fresh 0 []).cfg.memSize ∧ 254 + 1 < (fresh 0 []).cfg.memSize := by decide
theorem witness_AccessesOutOfRangeTransferNothing :
    (fresh 0 []).cfg.memSize ≤ 256 ∧ (fresh 0 []).cfg.memSize ≤ 255 + 1 := by decide
theorem witness_EqualReadsMeanEqualMemories : Memory.wf { cells := [(0, 0x10), (255, 0x01)] } = true ∧
    ∀ a, (Memory.byte { cells := [(0, 0x10), (255, 0x01)] } a) = Memory.byte { cells := [(0, 0x10), (255, 0x01)] } a :=
  ⟨by decide, fun _ => rfl⟩

/-- V14: a store into the instruction that follows. -/
theorem witness_StoredWordIsFetchedNext :
    let s := (fresh 0 [0x12, 0x02, 0x00, 0x04]).setReg .r1 0x1002
    (0x0004 : Word).toNat + 1 < s.cfg.memSize ∧ (∃ t, exec (.movRegMem .r1 0x0004) s = .next t) ∧
      s.reg .ip + 4 = 0x0004 :=
  ⟨by decide, ⟨_, rfl⟩, by decide⟩

theorem witness_MovRegMemStoresTheWord :
    (0x00FE : Word).toNat + 1 < (fresh 0 []).cfg.memSize ∧ (fresh 0 []).cfg.memSize ≤ (0x00FF : Word).toNat + 1 := by decide
theorem witness_MovMemRegLoadsTheWord :
    (0x00FE : Word).toNat + 1 < (fresh 0 []).cfg.memSize ∧ (fresh 0 []).cfg.memSize ≤ (0x00FF : Word).toNat + 1 := by decide
theorem witness_JmpNotEqJumpsWhenAccDiffers :
    (3 : Word) ≠ (fresh 0 []).reg .acc ∧ (fresh 0 []).cfg.memSize ≤ (0x0100 : Word).toNat ∧ (fresh 0 []).fault = none := by
  decide
theorem witness_PshLitPushesTheLiteral :
    ((fresh 0 []).reg .sp).toNat + 1 < (fresh 0 []).cfg.memSize ∧
    (fresh 0 []).cfg.memSize ≤ (((fresh 0 []).setReg .sp 0xFF).reg .sp).toNat + 1 := by decide
theorem witness_PshRegPushesTheRegister :
    ((fresh 0 []).reg .sp).toNat + 1 < (fresh 0 []).cfg.memSize ∧
    (fresh 0 []).cfg.memSize ≤ (((fresh 0 []).setReg .sp 0xFF).reg .sp).toNat + 1 := by decide
theorem witness_PopReadsTheWordAboveSp :
    (((fresh 0 []).setReg .sp 0xFC).reg .sp).toNat + 2 ≤ (fresh 0 []).cfg.memSize - 2 ∧
    (fresh 0 []).cfg.memSize - 2 < (((fresh 0 []).setReg .sp 0xFD).reg .sp).toNat + 2 := by decide

/-- Room for ten words down to address 0; with `sp` two lower the tenth wraps to 0xFFFE; with `sp = 0xFF` the first has
no room. -/
theorem witness_CalLitPushesTheFrameAndJumps :
    (fresh 0 []).cfg.wf = true ∧
    (∀ k, k < 10 → frameSlot ((fresh 0 []).setReg .sp 18) k + 1 < 256) ∧
    ((∀ j, j < 9 → frameSlot ((fresh 0 []).setReg .sp 16) j + 1 < 256) ∧
      256 ≤ frameSlot ((fresh 0 []).setReg .sp 16) 9 + 1) ∧
    256 ≤ frameSlot ((fresh 0 []).setReg .sp 0xFF) 0 + 1 := by decide
theorem witness_CalRegPushesTheFrameAndJumps :
    (fresh 0 []).cfg.wf = true ∧
    (∀ k, k < 10 → frameSlot ((fresh 0 []).setReg .sp 18) k + 1 < 256) ∧
    ((∀ j, j < 9 → frameSlot ((fresh 0 []).setReg .sp 16) j + 1 < 256) ∧
      256 ≤ frameSlot ((fresh 0 []).setReg .sp 16) 9 + 1) ∧
    256 ≤ frameSlot ((fresh 0 []).setReg .sp 0xFF) 0 + 1 := by decide

/-- The frame of S4 ends exactly at the last word; with a count of 5 the first argument pop is the one without a word. -/
theorem witness_RetUnwindsTheFrame :
    (inCall 0).cfg.wf = true ∧ ((inCall 0).reg .fp).toNat + 22 + 2 * returnCount (inCall 0) ≤ (inCall 0).cfg.memSize - 2 ∧
    11 < 11 + returnCount (inCall 5) ∧
    (∀ j, j < 11 → ((inCall 5).reg .fp).toNat + 2 * j + 2 ≤ (inCall 5).cfg.memSize - 2) ∧
    (inCall 5).cfg.memSize - 2 < ((inCall 5).reg .fp).toNat + 2 * 11 + 2 := by decide
theorem witness_UnknownOpcodeOnlyAdvancesIp : State.reset.cfg.unknownOpcode = .nop := by decide

/-- The machine of the other policy for unknown opcodes. -/
def otherPolicy : State := State.afterReset { cfg256 with unknownOpcode := .fault } { cells := [] }

theorem witness_UnknownOpcodeRaisesUnderTheOtherPolicy : otherPolicy.cfg.unknownOpcode = .fault := by decide
theorem witness_ExecRaisesExactlyAtTheFirstBadAccess :
    (inCall 5).cfg.wf = true ∧ (inCall 5).cfg.unknownOpcode = .nop ∧ ∃ t, exec .ret (inCall 5) = .next t ∧ True :=
  ⟨by decide, by decide, next_of (fun _ => True) (by decide +kernel)⟩
theorem witness_InstructionsWriteOnlyTheirRegisters :
    (∃ t, exec (.movLitReg 1 .r1) (fresh 0 []) = .next t) ∧ Reg.acc ∉ writtenRegs (.movLitReg 1 .r1) ∧
    usesStack (.movLitReg 1 .r1) = false ∧ mayTransfer (.movLitReg 1 .r1) = false :=
  ⟨⟨_, rfl⟩, by decide, by decide, by decide⟩
theorem witness_InstructionsWriteOnlyTheirBytes :
    (∃ t, exec (.pshLit 1) (fresh 0 []) = .next t) ∧ ∀ x ∈ dataAccesses (fresh 0 []) (.pshLit 1), ¬ x.writes 0xFD := by
  refine ⟨⟨_, rfl⟩, ?_⟩
  simp only [dataAccesses, List.forall_mem_singleton, Access.writes]
  decide
theorem witness_PushThenPopRestoresTheStack :
    (2 ≤ (((fresh 0 []).setReg .sp 2).reg .sp).toNat ∧ (((fresh 0 []).setReg .sp 2).reg .sp).toNat ≤ 256 - 2) ∧
    (2 ≤ ((fresh 0 []).reg .sp).toNat ∧ ((fresh 0 []).reg .sp).toNat ≤ (fresh 0 []).cfg.memSize - 2) := by decide

/-- S4 before its call: the count word 0 is on the stack, `fp` is 2 above `sp`, `FSZ` is 2. -/
def beforeCall : State := ((fresh 3 [0x5E, 0x00, 0x20]).setReg .sp 0xFC).setFsz 2

theorem witness_CallThenReturnRestoresTheCaller :
    beforeCall.cfg.wf = true ∧ (∃ a, Instr.calLit 0x20 = .calLit a) ∧ 20 ≤ (beforeCall.reg .sp).toNat ∧
    beforeCall.reg .fp = beforeCall.reg .sp + beforeCall.fsz ∧
    (beforeCall.reg .sp).toNat + 2 + 2 * (beforeCall.mem.word ((beforeCall.reg .sp).toNat + 2)).toNat ≤
      beforeCall.cfg.memSize - 2 ∧
    ∃ t, exec (.calLit 0x20) beforeCall = .next t ∧ ∃ u : State, u.cfg = t.cfg ∧ u.reg .fp = t.reg .fp ∧
      (∀ a, (beforeCall.reg .sp).toNat - 18 ≤ a → a < (beforeCall.reg .sp).toNat + 2 → u.mem.byte a = t.mem.byte a) ∧
      u.mem.word ((beforeCall.reg .sp).toNat + 2) = beforeCall.mem.word ((beforeCall.reg .sp).toNat + 2) :=
  have ⟨t, ht, hw⟩ := next_of (o := exec (.calLit 0x20) beforeCall)
    (fun t => t.mem.word ((beforeCall.reg .sp).toNat + 2) = beforeCall.mem.word ((beforeCall.reg .sp).toNat + 2))
    (by decide +kernel)
  ⟨by decide, ⟨_, rfl⟩, by decide, by decide, by decide, t, ht, t, rfl, rfl, fun _ _ _ => rfl, hw⟩

theorem witness_ConstructionGivesTheResetState :
    Config.wf { resetConfig with memSize := 2 } = true ∧ resetConfig.wf = true ∧
    (1 < 2 ∨ 65536 < 1) ∧ (65537 < 2 ∨ 65536 < 65537) ∧
    Opc.injective { defaultOpc with ret := 0x10 } = false := by decide
theorem witness_ResetRestoresAllButMemory : (inCall 5).cfg.wf = true := by decide
theorem witness_HostRegisterAccessRoundTrips : ∀ r, regName r ≠ "R1" := by
  intro r; cases r <;> decide
theorem witness_HostMemoryAccessIsTheMachines :
    255 < (fresh 0 []).cfg.memSize ∧ 254 + 1 < (fresh 0 []).cfg.memSize := by decide
theorem witness_FailedHostAccessChangesNothing :
    (fresh 0 []).cfg.memSize ≤ 256 ∧ (fresh 0 []).cfg.memSize ≤ 255 + 1 := by decide
theorem witness_HostCannotReachTheFrameCounter :
    HostRequest.reset ≠ .step ∧ HostRequest.getFault ≠ .step ∧ HostRequest.getFault ≠ .reset := by decide
theorem witness_FetchWordIsRunNext :
    State.reset.cfg.wf = true ∧ State.reset.fault = none ∧ (State.reset.reg .ip).toNat + 5 ≤ State.reset.cfg.memSize ∧
    decode State.reset.cfg.opc (tableBytes 8 0x60) = .ok (.ret, [0, 0, 0, 0]) :=
  ⟨by decide, by decide, by decide, rfl⟩
/-- Each of the three ends occurs. -/
theorem witness_RunEndsAtTheFirstFaultOrMetRule :
    (∃ t, run (.atAddress 0) 1 (fresh 0 []) = .success t) ∧ (∃ t, run (.atAddress 4) 0 (fresh 0 []) = .stopped t) ∧
    ∃ t, run (.afterSteps 1) 1 haltedMachine = .halted t :=
  ⟨⟨_, rfl⟩, ⟨_, rfl⟩, ⟨_, rfl⟩⟩
theorem witness_RunOfExactlyKSteps : 2 ≤ 5 ∧ (stepMany 2 (fresh 0 [])).fault = none ∧ 1 ≤ 1 ∧
    (stepMany 1 (fresh 0x100 [])).fault ≠ none := by decide +kernel
theorem witness_StepKeepsTheInvariant : (inCall 5).inv = true ∧ (∃ t, step (inCall 5) = .next t ∧ True) ∧
    haltedMachine.inv = true :=
  ⟨by decide, next_of (fun _ => True) (by decide +kernel), by decide⟩
theorem witness_EverySessionKeepsTheInvariant : (inCall 5).inv = true ∧ ∃ t, construct cfg256 = .next t :=
  ⟨by decide, _, rfl⟩

end Sys2Proof.Tests
end

