-- ==== Sys2Proof/Proofs/Registers.lean ====
section
/-! The register file (spec/10_state.md): the numbering of the twelve registers, and what a register write changes. -/

namespace Sys2Proof.Machine

/-! ### Register numbers (spec/10_state.md R11) -/

@[simp] theorem regOfIndex_regIndex (r : Reg) : regOfIndex (regIndex r) = r := by cases r <;> rfl

theorem regIndex_lt (r : Reg) : regIndex r < 12 := by cases r <;> decide

theorem regIndex_regOfIndex : ∀ n, n < 12 → regIndex (regOfIndex n) = n := by decide

/-! ### The frame of a register write (spec/10_state.md R10) -/

theorem setReg_sameCfgAndFault (s : State) (r : Reg) (v : Word) : SameCfgAndFault s (s.setReg r v) :=
  ⟨setReg_cfg s r v, setReg_fault s r v⟩

theorem setReg_sameBytes (s : State) (r : Reg) (v : Word) : SameBytes s (s.setReg r v) := fun a =>
  congrArg (Memory.byte · a) (setReg_mem s r v)

/-- Settles O14: the two numbering maps are inverse on the twelve registers, and a register write has its law for each
field of the state. -/
theorem registerWriteChangesOneRegister : Obligations.RegisterWriteChangesOneRegister := by
  refine ⟨fun r => ⟨regOfIndex_regIndex r, regIndex_lt r⟩, regIndex_regOfIndex, fun s r v => ?_⟩
  exact ⟨fun q => setReg_reg s r q v, setReg_fsz s r v, setReg_sameCfgAndFault s r v, setReg_sameBytes s r v⟩

end Sys2Proof.Machine
end

