-- ==== Sys2Proof/Proofs/Memory.lean ====
section
/-! The access contract (spec/20_memory.md R34, R35): what a byte or word access in range returns, and what it changes. -/

namespace Sys2Proof.Machine

/-! ### Accesses in range -/

theorem memRead8_of_lt {s : State} {a : Nat} (h : a < s.cfg.memSize) : memRead8 a s = .ok (s.mem.byte a) s := by
  rw [memRead8_eq, if_pos h]

theorem memRead16_of_lt {s : State} {a : Nat} (h : a + 1 < s.cfg.memSize) :
    memRead16 a s = .ok (s.mem.word a) s := by
  rw [memRead16_eq, if_pos h]

theorem memWrite8_of_lt {s : State} {a : Nat} (h : a < s.cfg.memSize) (v : Byte) :
    memWrite8 a v s = .ok () (s.setMem (s.mem.setByte a v)) := by
  rw [memWrite8_eq, if_pos h]

theorem memWrite16_of_lt {s : State} {a : Nat} (h : a + 1 < s.cfg.memSize) (v : Word) :
    memWrite16 a v s = .ok () (s.setMem (s.mem.setWord a v)) := by
  rw [memWrite16_eq, if_pos h]

/-! ### Big-endian words -/

theorem word_toNat (m : Memory) (a : Nat) : (m.word a).toNat = (m.byte a).toNat * 256 + (m.byte (a + 1)).toNat :=
  wordOf_toNat _ _

/-- The bytes after a word write in address order; the two addresses differ, so neither half hides the other. -/
theorem byte_setWord_high_first (m : Memory) (a b : Nat) (v : Word) :
    (m.setWord a v).byte b = if b = a then hi8 v else if b = a + 1 then lo8 v else m.byte b := by
  rw [byte_setWord]
  by_cases hb : b = a
  · have hne : b ≠ a + 1 := by omega
    rw [if_neg hne]
    simp only [hb, if_true]
  · simp only [hb, if_false]

/-! ### The frame of a memory write -/

theorem setMem_sameCfgAndFault (s : State) (m : Memory) : SameCfgAndFault s (s.setMem m) :=
  ⟨setMem_cfg s m, setMem_fault s m⟩

/-- Settles O15: each access in range has its equation; a write replaces the memory and nothing else, and the laws of
`setByte` and `setWord` say which bytes differ. -/
theorem accessesInRangeReadAndWriteBigEndian : Obligations.AccessesInRangeReadAndWriteBigEndian := by
  intro s a
  refine ⟨memRead8_of_lt, ?read16, ?write8, ?write16⟩
  case read16 => exact fun h => ⟨s.mem.word a, memRead16_of_lt h, word_toNat s.mem a⟩
  case write8 =>
    exact fun h v => ⟨s.setMem (s.mem.setByte a v), memWrite8_of_lt h v, fun b => byte_setByte s.mem a b v,
      setMem_reg s _, setMem_fsz s _, setMem_sameCfgAndFault s _⟩
  case write16 =>
    exact fun h v => ⟨s.setMem (s.mem.setWord a v), memWrite16_of_lt h v, fun b => byte_setWord_high_first s.mem a b v,
      setMem_reg s _, setMem_fsz s _, setMem_sameCfgAndFault s _⟩

end Sys2Proof.Machine
end

section
/-! The stack balance law (spec/44_stack.md R95): a `Pop` takes back what the `Push` before it stored. -/

namespace Sys2Proof.Machine

/-! ### A `Push` in range, and the `Pop` after it -/

/-- A push with room at `sp`, and the state it leaves (R90). -/
theorem push_ok {s : State} (v : Word) (h : (s.reg .sp).toNat + 1 < s.cfg.memSize) :
    push v s = .ok () (pushed v s) := by
  rw [push_eq, if_pos h]

/-- The `sp` a push leaves does not wrap when two bytes lie below it, so the address `Pop` computes over the integers is
the one `Push` wrote to. -/
theorem pushed_sp_toNat_add_two {s : State} (v : Word) (h : 2 ≤ (s.reg .sp).toNat) :
    ((pushed v s).reg .sp).toNat + 2 = (s.reg .sp).toNat := by
  simp only [pushed_reg, if_true]
  bv_omega

/-- The pop after a push returns the word pushed. -/
theorem pop_pushed {s : State} (v : Word) (hlow : 2 ≤ (s.reg .sp).toNat)
    (hroom : (s.reg .sp).toNat + 1 < s.cfg.memSize) : pop (pushed v s) = .ok v (popped (pushed v s)) := by
  have hsp := pushed_sp_toNat_add_two v hlow
  have hfits : ((pushed v s).reg .sp).toNat + 3 < (pushed v s).cfg.memSize := by
    rw [pushed_cfg]; omega
  rw [pop_ok _ hfits, hsp, pushed_mem, word_setWord]

/-! ### What the pair leaves -/

/-- `sp - 2 + 2` is `sp` modulo 65536, so the pair restores every register. -/
theorem popped_pushed_reg (v : Word) (s : State) (q : Reg) : (popped (pushed v s)).reg q = s.reg q := by
  by_cases hq : q = .sp
  · simp only [hq, popped_reg, pushed_reg, if_true, BitVec.sub_add_cancel]
  · simp only [hq, popped_reg, pushed_reg, if_false]

theorem popped_pushed_fsz (v : Word) (s : State) : (popped (pushed v s)).fsz = s.fsz := by
  rw [popped_fsz, pushed_fsz, BitVec.add_sub_cancel]

/-- The pop removes nothing from memory: the word pushed stays at the old `sp`. -/
theorem popped_pushed_mem (v : Word) (s : State) :
    (popped (pushed v s)).mem = s.mem.setWord (s.reg .sp).toNat v := by
  rw [popped_mem, pushed_mem]

/-- Settles O36: under the bounds on `sp` both operations end normally, and the state after the pair differs from the one
before it in the word written at `sp` alone. -/
theorem pushThenPopRestoresTheStack : Obligations.PushThenPopRestoresTheStack := by
  intro s v hlow hhigh
  have hroom : (s.reg .sp).toNat + 1 < s.cfg.memSize := by omega
  refine ⟨pushed v s, popped (pushed v s), push_ok v hroom, pop_pushed v hlow hroom, popped_pushed_reg v s .sp,
    popped_pushed_fsz v s, ?word, ?bytes, popped_pushed_reg v s⟩
  case word => rw [popped_pushed_mem, word_setWord]
  case bytes =>
    intro a ha ha'
    rw [popped_pushed_mem, byte_setWord, if_neg ha', if_neg ha]

end Sys2Proof.Machine
end

section
/-! Memory access by the host (spec/80_host_interface.md R166, R167): in range it is the machine's own access, and a value
written is reduced to the width of the access. -/

namespace Sys2Proof.Machine

/-! ### The halves of a reduced value -/

theorem hi8_ofNat_toNat (v : Nat) : (hi8 (BitVec.ofNat 16 v)).toNat = v / 256 % 256 := by
  simp only [hi8, BitVec.extractLsb'_toNat, BitVec.toNat_ofNat, Nat.shiftRight_eq_div_pow]
  omega

theorem lo8_ofNat_toNat (v : Nat) : (lo8 (BitVec.ofNat 16 v)).toNat = v % 256 := by
  simp only [lo8, BitVec.extractLsb'_toNat, BitVec.toNat_ofNat, Nat.shiftRight_zero]
  omega

/-! ### The bytes after a write of a reduced value -/

theorem byte_setByte_ofNat_toNat (m : Memory) (a b v : Nat) :
    ((m.setByte a (BitVec.ofNat 8 v)).byte b).toNat = if b = a then v % 256 else (m.byte b).toNat := by
  rw [byte_setByte, apply_ite BitVec.toNat, BitVec.toNat_ofNat]

theorem byte_setWord_ofNat_toNat (m : Memory) (a b v : Nat) :
    ((m.setWord a (BitVec.ofNat 16 v)).byte b).toNat =
      if b = a then v / 256 % 256 else if b = a + 1 then v % 256 else (m.byte b).toNat := by
  rw [byte_setWord_high_first, apply_ite BitVec.toNat, apply_ite BitVec.toNat, hi8_ofNat_toNat, lo8_ofNat_toNat]

/-! ### The memory requests in range -/

/-- An operation that ends normally is answered with its value, and its state is kept (R169 is for the other ones). -/
theorem answerOp_of_ok {α : Type} (answer : α → HostAnswer) {op : Op α} {s t : State} {x : α} (h : op s = .ok x t) :
    answerOp answer op s = (answer x, t) := by
  rw [answerOp, h]

theorem serve_readByte_of_lt {s : State} {a : Nat} (h : a < s.cfg.memSize) :
    serve (.readByte a) s = (.byte (s.mem.byte a), s) :=
  answerOp_of_ok .byte (memRead8_of_lt h)

theorem serve_readWord_of_lt {s : State} {a : Nat} (h : a + 1 < s.cfg.memSize) :
    serve (.readWord a) s = (.word (s.mem.word a), s) :=
  answerOp_of_ok .word (memRead16_of_lt h)

theorem serve_writeByte_of_lt {s : State} {a : Nat} (h : a < s.cfg.memSize) (v : Nat) :
    serve (.writeByte a v) s = (.done, s.setMem (s.mem.setByte a (BitVec.ofNat 8 v))) :=
  answerOp_of_ok (fun _ => .done) (memWrite8_of_lt h (BitVec.ofNat 8 v))

theorem serve_writeWord_of_lt {s : State} {a : Nat} (h : a + 1 < s.cfg.memSize) (v : Nat) :
    serve (.writeWord a v) s = (.done, s.setMem (s.mem.setWord a (BitVec.ofNat 16 v))) :=
  answerOp_of_ok (fun _ => .done) (memWrite16_of_lt h (BitVec.ofNat 16 v))

/-- Settles O41: each of the four requests in range has its equation; the laws of `setByte` and `setWord` at a reduced value
say which bytes a write changes, and it replaces the memory alone. -/
theorem hostMemoryAccessIsTheMachines : Obligations.HostMemoryAccessIsTheMachines := by
  intro s a v
  refine ⟨fun h => ⟨serve_readByte_of_lt h, ?writeByte⟩, fun h => ⟨serve_readWord_of_lt h, ?writeWord⟩⟩
  case writeByte =>
    exact ⟨_, serve_writeByte_of_lt h v, fun b => byte_setByte_ofNat_toNat s.mem a b v,
      setMem_reg s _, setMem_fsz s _, setMem_sameCfgAndFault s _⟩
  case writeWord =>
    exact ⟨_, serve_writeWord_of_lt h v, fun b => byte_setWord_ofNat_toNat s.mem a b v,
      setMem_reg s _, setMem_fsz s _, setMem_sameCfgAndFault s _⟩

end Sys2Proof.Machine
end

section
/-! The decoder and the encoder (spec/30_encoding.md): what the layout of an opcode byte says of every instruction it builds,
and what decoding a list of bytes gives. -/

namespace Sys2Proof

open Machine

/-! ### The instructions a layout builds -/

/-- The instruction is one the layout builds, from some operands. -/
def Layout.Builds : Layout → Instr → Prop
  | .f0 i, j => j = i
  | .fr mk, j => ∃ a, j = mk a
  | .frr mk, j => ∃ a c, j = mk a c
  | .fi mk, j => ∃ w, j = mk w
  | .fir mk, j => ∃ w a, j = mk w a
  | .fri mk, j => ∃ a w, j = mk a w
  | .fii mk, j => ∃ v w, j = mk v w

/-- The length in bytes of the instructions of a layout (R53). -/
def Layout.length : Layout → Nat
  | .f0 _ => 1
  | .fr _ => 2
  | .frr _ => 3
  | .fi _ => 3
  | .fir _ => 4
  | .fri _ => 4
  | .fii _ => 5

/-- The operand fetches of a layout, the opcode byte at `a` (spec/40_engine.md R75). -/
def Layout.operandAccesses (a : Word) : Layout → List Access
  | .f0 _ => []
  | .fr _ => [fetchAt a 1 1]
  | .frr _ => [fetchAt a 1 1, fetchAt a 2 1]
  | .fi _ => [fetchAt a 1 2]
  | .fir _ => [fetchAt a 1 2, fetchAt a 3 1]
  | .fri _ => [fetchAt a 1 1, fetchAt a 2 2]
  | .fii _ => [fetchAt a 1 2, fetchAt a 3 2]

/-- What the opcode byte `b` and its layout say of an instruction. -/
structure HasFormat (o : Opc) (b : Byte) (L : Layout) (i : Instr) : Prop where
  opcode : opcodeOf o i = b
  wf : i.wf o = true
  length : instrLength i = L.length
  fetches : ∀ a, fetchAccesses a i = fetchAt a 0 1 :: L.operandAccesses a

/-- The layout is right for the opcode byte `b`: whatever it builds has its format. -/
def Layout.RightFor (o : Opc) (b : Byte) (L : Layout) : Prop := ∀ i, L.Builds i → HasFormat o b L i

theorem rightFor_ite {o : Opc} {b : Byte} {c : Prop} [Decidable c] {x y : Layout} (hx : c → x.RightFor o b)
    (hy : ¬ c → y.RightFor o b) : (if c then x else y).RightFor o b := by
  split_ifs with h
  · exact hx h
  · exact hy h

/-- The opcode table gives every byte a layout that is right for it (R56, R57): one line per row. -/
theorem layoutOf_rightFor (o : Opc) (b : Byte) : (layoutOf o b).RightFor o b := by
  unfold layoutOf
  refine rightFor_ite (fun h _ ⟨_, _, hi⟩ => hi ▸ ⟨h.symm, rfl, rfl, fun _ => rfl⟩) fun n0 => ?_ -- movLitReg
  refine rightFor_ite (fun h _ ⟨_, _, hi⟩ => hi ▸ ⟨h.symm, rfl, rfl, fun _ => rfl⟩) fun n1 => ?_ -- movRegReg
  refine rightFor_ite (fun h _ ⟨_, _, hi⟩ => hi ▸ ⟨h.symm, rfl, rfl, fun _ => rfl⟩) fun n2 => ?_ -- movRegMem
  refine rightFor_ite (fun h _ ⟨_, _, hi⟩ => hi ▸ ⟨h.symm, rfl, rfl, fun _ => rfl⟩) fun n3 => ?_ -- movMemReg
  refine rightFor_ite (fun h _ ⟨_, _, hi⟩ => hi ▸ ⟨h.symm, rfl, rfl, fun _ => rfl⟩) fun n4 => ?_ -- addRegReg
  refine rightFor_ite (fun h _ ⟨_, _, hi⟩ => hi ▸ ⟨h.symm, rfl, rfl, fun _ => rfl⟩) fun n5 => ?_ -- jmpNotEq
  refine rightFor_ite (fun h _ ⟨_, hi⟩ => hi ▸ ⟨h.symm, rfl, rfl, fun _ => rfl⟩) fun n6 => ?_ -- pshLit
  refine rightFor_ite (fun h _ ⟨_, hi⟩ => hi ▸ ⟨h.symm, rfl, rfl, fun _ => rfl⟩) fun n7 => ?_ -- pshReg
  refine rightFor_ite (fun h _ ⟨_, hi⟩ => hi ▸ ⟨h.symm, rfl, rfl, fun _ => rfl⟩) fun n8 => ?_ -- pop
  refine rightFor_ite (fun h _ ⟨_, hi⟩ => hi ▸ ⟨h.symm, rfl, rfl, fun _ => rfl⟩) fun n9 => ?_ -- calLit
  refine rightFor_ite (fun h _ ⟨_, hi⟩ => hi ▸ ⟨h.symm, rfl, rfl, fun _ => rfl⟩) fun n10 => ?_ -- calReg
  refine rightFor_ite (fun h i hi => ?_) fun n11 => ?_ -- ret
  · obtain rfl : i = .ret := hi
    exact ⟨h.symm, rfl, rfl, fun _ => rfl⟩
  have hout : o.knows b = false := by
    simp only [Opc.knows, Opc.bytes, List.mem_cons, List.not_mem_nil, n0, n1, n2, n3, n4, n5, n6, n7, n8, n9, n10, n11,
      or_self, decide_false]
  intro i hi
  obtain rfl : i = .unknownOpcode b := hi
  exact ⟨rfl, by rw [Instr.wf, hout]; rfl, rfl, fun _ => rfl⟩

/-! ### What decoding gives -/

/-- The instruction a layout builds from the operand bytes `c0`..`c3` that follow the opcode byte; a short one does not read
the later ones (R57). -/
def Layout.build (c0 c1 c2 c3 : Byte) : Layout → Instr
  | .f0 i => i
  | .fr mk => mk (regOfSelector c0)
  | .frr mk => mk (regOfSelector c0) (regOfSelector c1)
  | .fi mk => mk (wordOf c0 c1)
  | .fir mk => mk (wordOf c0 c1) (regOfSelector c2)
  | .fri mk => mk (regOfSelector c0) (wordOf c1 c2)
  | .fii mk => mk (wordOf c0 c1) (wordOf c2 c3)

theorem build_builds (L : Layout) (c0 c1 c2 c3 : Byte) : L.Builds (L.build c0 c1 c2 c3) := by
  cases L
  case f0 => rfl
  case fr => exact ⟨_, rfl⟩
  case fi => exact ⟨_, rfl⟩
  all_goals exact ⟨_, _, rfl⟩

/-- Five bytes are enough for every layout, and the instruction is what the layout builds from the four after the opcode. -/
theorem decode_five (o : Opc) (b c0 c1 c2 c3 : Byte) (rest : List Byte) :
    decode o (b :: c0 :: c1 :: c2 :: c3 :: rest) =
      .ok ((layoutOf o b).build c0 c1 c2 c3, (b :: c0 :: c1 :: c2 :: c3 :: rest).drop (layoutOf o b).length) := by
  cases h : layoutOf o b <;> simp [Layout.length, decode, h, Layout.build]

/-- The bytes of the instruction alone are enough, and no byte is left. -/
theorem decode_five_take (o : Opc) (b c0 c1 c2 c3 : Byte) (rest : List Byte) :
    decode o ((b :: c0 :: c1 :: c2 :: c3 :: rest).take (layoutOf o b).length) =
      .ok ((layoutOf o b).build c0 c1 c2 c3, []) := by
  cases h : layoutOf o b <;> simp [Layout.length, decode, h, Layout.build]

theorem Layout.length_bounds (L : Layout) : 1 ≤ L.length ∧ L.length ≤ 5 := by
  cases L <;> simp [Layout.length]

/-- Settles O2: five bytes decode to what the layout of the first builds, and that has the layout's format. -/
theorem anyFiveBytesDecode : Obligations.AnyFiveBytesDecode := by
  intro o bytes hlen
  obtain ⟨b, c0, c1, c2, c3, rest, rfl⟩ : ∃ b c0 c1 c2 c3 rest, bytes = b :: c0 :: c1 :: c2 :: c3 :: rest := by
    match bytes, hlen with
    | b :: c0 :: c1 :: c2 :: c3 :: rest, _ => exact ⟨b, c0, c1, c2, c3, rest, rfl⟩
  have hfmt := layoutOf_rightFor o b _ (build_builds (layoutOf o b) c0 c1 c2 c3)
  refine ⟨(layoutOf o b).build c0 c1 c2 c3, ?_, ?_, hfmt.wf, ?_, ?_⟩
  · rw [hfmt.length, decode_five]
  · rw [hfmt.length, decode_five_take]
  · rw [hfmt.opcode]; rfl
  · rw [hfmt.length]; exact (layoutOf o b).length_bounds

/-! ### Decoding each instruction from its bytes -/

section
variable {o : Opc} (ho : o.injective = true) (a c h l h' l' : Byte) (rest : List Byte)

theorem decode_movLitReg (o : Opc) : decode o (o.movLitReg :: h :: l :: a :: rest) =
    .ok (.movLitReg (wordOf h l) (regOfSelector a), rest) := by simp only [decode, layoutOf_movLitReg]

include ho

theorem decode_movRegReg : decode o (o.movRegReg :: a :: c :: rest) =
    .ok (.movRegReg (regOfSelector a) (regOfSelector c), rest) := by simp only [decode, layoutOf_movRegReg ho]
theorem decode_movRegMem : decode o (o.movRegMem :: a :: h :: l :: rest) =
    .ok (.movRegMem (regOfSelector a) (wordOf h l), rest) := by simp only [decode, layoutOf_movRegMem ho]
theorem decode_movMemReg : decode o (o.movMemReg :: h :: l :: a :: rest) =
    .ok (.movMemReg (wordOf h l) (regOfSelector a), rest) := by simp only [decode, layoutOf_movMemReg ho]
theorem decode_addRegReg : decode o (o.addRegReg :: a :: c :: rest) =
    .ok (.addRegReg (regOfSelector a) (regOfSelector c), rest) := by simp only [decode, layoutOf_addRegReg ho]
theorem decode_jmpNotEq : decode o (o.jmpNotEq :: h :: l :: h' :: l' :: rest) =
    .ok (.jmpNotEq (wordOf h l) (wordOf h' l'), rest) := by simp only [decode, layoutOf_jmpNotEq ho]
theorem decode_pshLit : decode o (o.pshLit :: h :: l :: rest) = .ok (.pshLit (wordOf h l), rest) := by
  simp only [decode, layoutOf_pshLit ho]
theorem decode_pshReg : decode o (o.pshReg :: a :: rest) = .ok (.pshReg (regOfSelector a), rest) := by
  simp only [decode, layoutOf_pshReg ho]
theorem decode_pop : decode o (o.pop :: a :: rest) = .ok (.pop (regOfSelector a), rest) := by
  simp only [decode, layoutOf_pop ho]
theorem decode_calLit : decode o (o.calLit :: h :: l :: rest) = .ok (.calLit (wordOf h l), rest) := by
  simp only [decode, layoutOf_calLit ho]
theorem decode_calReg : decode o (o.calReg :: a :: rest) = .ok (.calReg (regOfSelector a), rest) := by
  simp only [decode, layoutOf_calReg ho]
theorem decode_ret : decode o (o.ret :: rest) = .ok (.ret, rest) := by simp only [decode, layoutOf_ret ho]

end

theorem decode_unknown {o : Opc} {b : Byte} (hb : o.knows b = false) (rest : List Byte) :
    decode o (b :: rest) = .ok (.unknownOpcode b, rest) := by simp only [decode, layoutOf_unknown hb]

/-! ### Decoding after encoding -/

/-- Settles O1: the opcode byte selects the layout of the instruction, canonical selectors and the two halves of a word read
back, and an unknown opcode that is well-formed is outside the map. -/
theorem decodeReadsBackEncode : Obligations.DecodeReadsBackEncode := by
  intro o i rest ho hi
  cases i with
  | movLitReg lit reg => exact (decode_movLitReg _ _ _ rest o).trans (by simp)
  | movRegReg regFrom regTo => exact (decode_movRegReg ho _ _ rest).trans (by simp)
  | movRegMem regFrom addr => exact (decode_movRegMem ho _ _ _ rest).trans (by simp)
  | movMemReg addr regTo => exact (decode_movMemReg ho _ _ _ rest).trans (by simp)
  | addRegReg regA regB => exact (decode_addRegReg ho _ _ rest).trans (by simp)
  | jmpNotEq val addr => exact (decode_jmpNotEq ho _ _ _ _ rest).trans (by simp)
  | pshLit lit => exact (decode_pshLit ho _ _ rest).trans (by simp)
  | pshReg reg => exact (decode_pshReg ho _ rest).trans (by simp)
  | pop reg => exact (decode_pop ho _ rest).trans (by simp)
  | calLit addr => exact (decode_calLit ho _ _ rest).trans (by simp)
  | calReg reg => exact (decode_calReg ho _ rest).trans (by simp)
  | ret => exact decode_ret ho rest
  | unknownOpcode b =>
    have hb : o.knows b = false := by simpa [Instr.wf] using hi
    exact decode_unknown hb rest

/-! ### Operands -/

theorem regIndex_regOfSelector (b : Byte) : regIndex (regOfSelector b) = b.toNat % 12 :=
  regIndex_regOfIndex _ (Nat.mod_lt _ (by decide))

/-- 256 is 21 times 12 and 4 over, so the four lowest index numbers have one selector byte more. -/
theorem selector_count (r : Reg) : ((List.range 256).filter fun n => regOfSelector (BitVec.ofNat 8 n) = r).length =
    if regIndex r < 4 then 22 else 21 := by
  cases r <;> decide +kernel

/-- Settles O3: the reduction modulo 12, its counts, and the decoding of each instruction with a selector. -/
theorem selectorsReduceModuloTwelve : Obligations.SelectorsReduceModuloTwelve := by
  refine ⟨regIndex_regOfSelector, selector_count, fun o a c h l ho => ?_⟩
  exact ⟨decode_movLitReg a h l [] o, decode_movRegReg ho a c [], decode_movRegMem ho a h l [], decode_movMemReg ho a h l [],
    decode_addRegReg ho a c [], decode_pshReg ho a [], decode_pop ho a [], decode_calReg ho a []⟩

/-- Settles O4: the value of a word of two bytes, and the decoding of each instruction with a 16-bit operand. -/
theorem sixteenBitOperandsAreBigEndian : Obligations.SixteenBitOperandsAreBigEndian := by
  refine ⟨wordOf_toNat, fun o a h l h' l' ho => ?_⟩
  exact ⟨decode_movLitReg a h l [] o, decode_movRegMem ho a h l [], decode_movMemReg ho a h l [],
    decode_jmpNotEq ho h l h' l' [], decode_pshLit ho h l [], decode_calLit ho h l []⟩

/-! ### Unknown opcodes and written-out words -/

theorem knows_eq_false_iff (o : Opc) (b : Byte) : o.knows b = false ↔ b ∉ o.bytes := by simp [Opc.knows]

/-- Settles O5: a byte outside the map has the layout without operands; the default map leaves out 244 bytes. -/
theorem unknownBytesAreOneByteInstructions : Obligations.UnknownBytesAreOneByteInstructions :=
  ⟨fun o b rest hb => decode_unknown ((knows_eq_false_iff o b).2 hb) rest, by decide +kernel, by decide⟩

theorem defaultOpc_injective : defaultOpc.injective = true := by decide

/-- Settles O6: each word is decoded by the equation of its instruction. -/
theorem writtenOutWordsDecode : Obligations.WrittenOutWordsDecode :=
  have ho := defaultOpc_injective
  ⟨decode_movLitReg 0x02 0x12 0x34 [] defaultOpc, decode_movRegReg ho 0x01 0x06 [], decode_movRegMem ho 0x01 0x01 0x00 [],
    decode_movMemReg ho 0x02 0x01 0x00 [], decode_addRegReg ho 0x02 0x03 [], decode_jmpNotEq ho 0x00 0x03 0x00 0x00 [],
    decode_pshLit ho 0x44 0x44 [], decode_pshReg ho 0x0A [], decode_pop ho 0x02 [], decode_calLit ho 0x00 0x30 [],
    decode_calReg ho 0x0A [], decode_ret ho []⟩

end Sys2Proof
end

section
/-! The fetch and the step (spec/40_engine.md sections 1 to 3): a step reads the instruction at `ip`, or raises at the first
of that instruction's fetches that is out of range. -/

namespace Sys2Proof.Machine

/-! ### The fetch helpers -/

/-- Settles O7: the equations of `Fetch8` and `FetchReg` on either side of the bound. -/
theorem fetchByteAndSelectorAdvanceIp : Obligations.FetchByteAndSelectorAdvanceIp := by
  refine fun s => ⟨fun h => ⟨?_, ?_⟩, fun h => ⟨?_, ?_⟩⟩
  · rw [fetch8_eq, if_pos h]
  · rw [fetchReg_eq, if_pos h, regOfSelector]
  · rw [fetch8_eq, if_neg (Nat.not_lt.2 h)]
  · rw [fetchReg_eq, if_neg (Nat.not_lt.2 h)]

/-- Settles O8: the equation of `Fetch16` on either side of the bound. -/
theorem fetchWordAdvancesIpByTwo : Obligations.FetchWordAdvancesIpByTwo := by
  refine fun s => ⟨fun h => ?_, fun h => ?_⟩
  · rw [fetch16_eq, if_pos h, Memory.word]
  · rw [fetch16_eq, if_neg (Nat.not_lt.2 h)]

/-! ### The operand fetches of a layout -/

theorem advanceIp_add (j k : Nat) (s : State) : advanceIp j (advanceIp k s) = advanceIp (k + j) s := by
  simp [advanceIp, setReg_setReg, BitVec.ofNat_add, BitVec.add_assoc]

/-- At the fetch `k` bytes into the instruction `ip` is the address of that fetch. -/
theorem advanceIp_eq_setReg_addr (k n : Nat) (s : State) :
    advanceIp k s = s.setReg .ip (BitVec.ofNat 16 (fetchAt (s.reg .ip) k n).addr) := by
  simp only [advanceIp, fetchAt, BitVec.ofNat_toNat, BitVec.setWidth_eq]

/-- What a block of fetches ends in: its result when all are in range, else the raise of the first that is not, with `ip` at
its address. -/
def fetchEnd (s : State) (xs : List Access) (r : EStateM.Result Fault State Instr) : EStateM.Result Fault State Instr :=
  (firstBad s.cfg.memSize xs).elim r fun x => .error x.condition (s.setReg .ip (BitVec.ofNat 16 x.addr))

theorem fetchEnd_cons (s : State) (k n : Nat) (xs : List Access) (r : EStateM.Result Fault State Instr) :
    fetchEnd s (fetchAt (s.reg .ip) k n :: xs) r = if (fetchAt (s.reg .ip) k n).addr + n - 1 < s.cfg.memSize
      then fetchEnd s xs r else .error (.outOfBounds (fetchAt (s.reg .ip) k n).addr n .read) (advanceIp k s) := by
  rw [fetchEnd, firstBad_cons]
  split_ifs with h h' h'
  · rfl
  · exact absurd h h'
  · exact absurd h' h
  · rw [advanceIp_eq_setReg_addr k n]; rfl

/-- A `FetchReg` at the `k`-th byte of the instruction at `ip`, and the fetches after it. -/
theorem fetchReg_bind {s : State} {k : Nat} {f : Reg → Op Instr} {xs : List Access} {r : EStateM.Result Fault State Instr}
    (h : f (regOfSelector (s.mem.byte (fetchAt (s.reg .ip) k 1).addr)) (advanceIp (k + 1) s) = fetchEnd s xs r) :
    (fetchReg >>= f) (advanceIp k s) = fetchEnd s (fetchAt (s.reg .ip) k 1 :: xs) r := by
  have hip : (advanceIp k s).reg .ip = s.reg .ip + BitVec.ofNat 16 k := by simp
  rw [op_bind, fetchReg_eq, fetchEnd_cons, ← h, hip, ← advanceIp_add 1 k, advanceIp_cfg, advanceIp_mem, Nat.add_sub_cancel,
    fetchAt]
  split_ifs
  · rw [← hip]; rfl
  · rfl

/-- A `Fetch16` at the `k`-th byte of the instruction at `ip`, and the fetches after it. -/
theorem fetch16_bind {s : State} {k : Nat} {f : Word → Op Instr} {xs : List Access} {r : EStateM.Result Fault State Instr}
    (h : f (s.mem.word (fetchAt (s.reg .ip) k 2).addr) (advanceIp (k + 2) s) = fetchEnd s xs r) :
    (fetch16 >>= f) (advanceIp k s) = fetchEnd s (fetchAt (s.reg .ip) k 2 :: xs) r := by
  have hip : (advanceIp k s).reg .ip = s.reg .ip + BitVec.ofNat 16 k := by simp
  rw [op_bind, fetch16_eq, fetchEnd_cons, ← h, hip, ← advanceIp_add 2 k, advanceIp_cfg, advanceIp_mem, fetchAt]
  show _ = if (s.reg .ip + BitVec.ofNat 16 k).toNat + 1 < s.cfg.memSize then _ else _
  split_ifs
  · rw [← hip]; rfl
  · rfl

/-- The instruction a layout builds from the memory after the opcode byte at `a`. -/
def readLayout (m : Memory) (a : Word) : Layout → Instr
  | .f0 i => i
  | .fr mk => mk (regOfSelector (m.byte (fetchAt a 1 1).addr))
  | .frr mk => mk (regOfSelector (m.byte (fetchAt a 1 1).addr)) (regOfSelector (m.byte (fetchAt a 2 1).addr))
  | .fi mk => mk (m.word (fetchAt a 1 2).addr)
  | .fir mk => mk (m.word (fetchAt a 1 2).addr) (regOfSelector (m.byte (fetchAt a 3 1).addr))
  | .fri mk => mk (regOfSelector (m.byte (fetchAt a 1 1).addr)) (m.word (fetchAt a 2 2).addr)
  | .fii mk => mk (m.word (fetchAt a 1 2).addr) (m.word (fetchAt a 3 2).addr)

theorem readLayout_builds (m : Memory) (a : Word) (L : Layout) : L.Builds (readLayout m a L) := by
  cases L
  case f0 => rfl
  case fr => exact ⟨_, rfl⟩
  case fi => exact ⟨_, rfl⟩
  all_goals exact ⟨_, _, rfl⟩

/-- Everything the operand fetches can do (R75): one fetch after another, as the layout lists them. -/
theorem fetchOperands_advanceIp (L : Layout) (s : State) : fetchOperands L (advanceIp 1 s) =
    fetchEnd s (L.operandAccesses (s.reg .ip)) (.ok (readLayout s.mem (s.reg .ip) L) (advanceIp L.length s)) := by
  cases L with
  | f0 i => rfl
  | fr mk => exact fetchReg_bind rfl
  | frr mk => exact fetchReg_bind (fetchReg_bind rfl)
  | fi mk => exact fetch16_bind rfl
  | fir mk => exact fetch16_bind (fetchReg_bind rfl)
  | fri mk => exact fetchReg_bind (fetch16_bind rfl)
  | fii mk => exact fetch16_bind (fetch16_bind rfl)

/-! ### The fetch phase -/

/-- The layout of the byte at `ip`. -/
def layoutAt (s : State) : Layout := layoutOf s.cfg.opc (s.mem.byte (s.reg .ip).toNat)

/-- The instruction the fetch phase reads when nothing raises. -/
def instrAt (s : State) : Instr := readLayout s.mem (s.reg .ip) (layoutAt s)

theorem instrAt_hasFormat (s : State) :
    HasFormat s.cfg.opc (s.mem.byte (s.reg .ip).toNat) (layoutAt s) (instrAt s) :=
  layoutOf_rightFor _ _ _ (readLayout_builds _ _ _)

/-- The state in which a fetch raises at the access `x` (spec/60_exceptions.md R124 to R126). -/
def raisedAt (s : State) (x : Access) : State :=
  (s.setReg .ip (BitVec.ofNat 16 x.addr)).setFault (some (recordAt s x.condition))

/-- Everything the fetch phase can do (R71): the instruction at `ip`, or a raise at the first of its fetches that is out of
range. -/
theorem fetchInstr_eq (s : State) : fetchInstr s =
    (firstBad s.cfg.memSize (fetchAccesses (s.reg .ip) (instrAt s))).elim (.instr (instrAt s))
      fun x => .raised (raisedAt s x) := by
  have haddr : (fetchAt (s.reg .ip) 0 1).addr = (s.reg .ip).toNat := by simp [fetchAt]
  rw [(instrAt_hasFormat s).fetches, firstBad_cons, fetchInstr, fetch8_eq, haddr]
  show _ = Option.elim (if (s.reg .ip).toNat < s.cfg.memSize then _ else _) _ _
  by_cases hin : (s.reg .ip).toNat < s.cfg.memSize
  case neg =>
    have hself : s.setReg .ip (BitVec.ofNat 16 (fetchAt (s.reg .ip) 0 1).addr) = s := by
      rw [haddr, BitVec.ofNat_toNat, BitVec.setWidth_eq, setReg_self]
    rw [if_neg hin, if_neg hin, Option.elim_some, raisedAt, hself, recordAt, if_neg hin]
    simp only [Access.condition, haddr]
    rfl
  case pos =>
    have hops : fetchOperands (layoutAt s) (s.setReg .ip (s.reg .ip + 1)) = _ := fetchOperands_advanceIp (layoutAt s) s
    rw [if_pos hin, if_pos hin]
    show (match fetchOperands (layoutAt s) (s.setReg .ip (s.reg .ip + 1)) with
      | .error f t => Fetched.raised (raise f (s.reg .ip) (some (s.mem.byte (s.reg .ip).toNat)) t)
      | .ok i _ => .instr i) = _
    rw [hops, fetchEnd]
    cases firstBad s.cfg.memSize ((layoutAt s).operandAccesses (s.reg .ip)) with
    | none => rfl
    | some x => simp only [Option.elim_some, raisedAt, recordAt, if_pos hin, raise]

/-! ### The step -/

section
variable {s : State}

/-- A halted machine does not step (spec/60_exceptions.md R127). -/
theorem step_of_fault (h : s.fault ≠ none) : step s = .next s := if_pos ((halted_eq_true s).2 h)

theorem step_of_not_fault (h : s.fault = none) :
    step s = match fetchInstr s with | .raised t => .next t | .instr i => exec i s :=
  if_neg (by simp [h])

/-- A step whose first fetch out of range is `x`. -/
theorem step_of_bad_fetch {x : Access} (h : s.fault = none)
    (hx : firstBad s.cfg.memSize (fetchAccesses (s.reg .ip) (instrAt s)) = some x) : step s = .next (raisedAt s x) := by
  have hfetch : fetchInstr s = .raised (raisedAt s x) := by rw [fetchInstr_eq, hx]; rfl
  rw [step_of_not_fault h, hfetch]

/-- A step all of whose fetches are in range. -/
theorem step_of_good_fetches (h : s.fault = none)
    (hx : firstBad s.cfg.memSize (fetchAccesses (s.reg .ip) (instrAt s)) = none) : step s = exec (instrAt s) s := by
  have hfetch : fetchInstr s = .instr (instrAt s) := by rw [fetchInstr_eq, hx]; rfl
  rw [step_of_not_fault h, hfetch]

/-- Everything a step can do: nothing while halted, a raise at a fetch, or the instruction at `ip`. -/
theorem step_cases (s : State) :
    (s.fault ≠ none ∧ step s = .next s) ∨
    (s.fault = none ∧ ∃ x, firstBad s.cfg.memSize (fetchAccesses (s.reg .ip) (instrAt s)) = some x ∧
      step s = .next (raisedAt s x)) ∨
    (s.fault = none ∧ firstBad s.cfg.memSize (fetchAccesses (s.reg .ip) (instrAt s)) = none ∧
      step s = exec (instrAt s) s) := by
  by_cases h : s.fault = none
  case neg => exact .inl ⟨h, step_of_fault h⟩
  case pos =>
    cases hx : firstBad s.cfg.memSize (fetchAccesses (s.reg .ip) (instrAt s)) with
    | some x => exact .inr (.inl ⟨h, x, rfl, step_of_bad_fetch h hx⟩)
    | none => exact .inr (.inr ⟨h, rfl, step_of_good_fetches h hx⟩)

end

/-- Every instruction answers a next state. -/
theorem exec_next (i : Instr) (s : State) : ∃ t, exec i s = .next t := by
  have A : Allows (fun _ _ => True) (writtenRegs i) true true :=
    ⟨fun _ => trivial, fun _ _ _ _ _ => trivial, fun _ _ _ _ => trivial, fun _ _ _ => trivial, fun _ _ _ _ _ => trivial⟩
  rcases exec_ends A i (fun _ h => h) (fun _ => rfl) (fun _ => rfl) s with ⟨t, -, h⟩ | ⟨f, t, -, h⟩
  · exact ⟨t, h⟩
  · exact ⟨_, h⟩

/-- Settles O11: each of the three things a step can do is a next state. -/
theorem everyStepAnswersANextState : Obligations.EveryStepAnswersANextState := by
  intro s
  rcases step_cases s with ⟨-, h⟩ | ⟨-, x, -, h⟩ | ⟨-, -, h⟩
  · exact ⟨s, h⟩
  · exact ⟨raisedAt s x, h⟩
  · rw [h]; exact exec_next _ s

/-! ### The bytes at `ip` -/

/-- The five bytes from an address on, each where a byte fetch at that distance reads. -/
theorem codeBytes_five (m : Memory) (a : Word) : codeBytes m 5 a = [m.byte a.toNat, m.byte (fetchAt a 1 1).addr,
    m.byte (fetchAt a 2 1).addr, m.byte (fetchAt a 3 1).addr, m.byte (fetchAt a 4 1).addr] := by
  have hadd : ∀ j k : Nat, a + BitVec.ofNat 16 j + BitVec.ofNat 16 k = a + BitVec.ofNat 16 (j + k) := fun j k => by
    rw [BitVec.ofNat_add, BitVec.add_assoc]
  have h2 : a + 1 + 1 = a + BitVec.ofNat 16 2 := hadd 1 1
  have h3 : a + BitVec.ofNat 16 2 + 1 = a + BitVec.ofNat 16 3 := hadd 2 1
  have h4 : a + BitVec.ofNat 16 3 + 1 = a + BitVec.ofNat 16 4 := hadd 3 1
  simp only [codeBytes, h2, h3, h4]
  rfl

/-- The bytes at `ip` decode to what the layout of the first builds from the four after it. -/
theorem codeIs_iff (s : State) (i : Instr) : CodeIs s i ↔
    i = (layoutAt s).build (s.mem.byte (fetchAt (s.reg .ip) 1 1).addr) (s.mem.byte (fetchAt (s.reg .ip) 2 1).addr)
      (s.mem.byte (fetchAt (s.reg .ip) 3 1).addr) (s.mem.byte (fetchAt (s.reg .ip) 4 1).addr) := by
  simp only [CodeIs, codeBytes_five, decode_five, Except.ok.injEq, Prod.mk.injEq, exists_and_left, exists_eq', and_true]
  exact eq_comm

theorem hasFormat_of_codeIs {s : State} {i : Instr} (h : CodeIs s i) :
    HasFormat s.cfg.opc (s.mem.byte (s.reg .ip).toNat) (layoutAt s) i :=
  layoutOf_rightFor _ _ _ ((codeIs_iff s i).1 h ▸ build_builds _ _ _ _ _)

/-- The opcode byte alone decides which fetches an instruction makes (spec/30_encoding.md R50, R59). -/
theorem fetchAccesses_of_codeIs {s : State} {i : Instr} (h : CodeIs s i) :
    fetchAccesses (s.reg .ip) (instrAt s) = fetchAccesses (s.reg .ip) i := by
  rw [(instrAt_hasFormat s).fetches, (hasFormat_of_codeIs h).fetches]

/-- Settles O10: the fetch phase makes the fetches of the instruction the bytes decode to. -/
theorem fetchRaisesAtItsFirstBadAccess : Obligations.FetchRaisesAtItsFirstBadAccess := by
  intro i s x hfault hcode hx
  exact step_of_bad_fetch hfault (by rw [fetchAccesses_of_codeIs hcode]; exact hx)

theorem firstBad_eq_none_iff (size : Nat) (xs : List Access) :
    firstBad size xs = none ↔ ∀ x ∈ xs, x.fits size = true := by simp [firstBad]

/-- A word fetched in range, in a memory no larger than the addresses reach, is the two bytes the decoder reads. -/
theorem word_fetchAt {size : Nat} {a : Word} {k : Nat} (m : Memory) (hsize : size ≤ 65536)
    (h : (fetchAt a k 2).fits size = true) :
    m.word (fetchAt a k 2).addr = wordOf (m.byte (fetchAt a k 1).addr) (m.byte (fetchAt a (k + 1) 1).addr) := by
  have hfit : (a + BitVec.ofNat 16 k).toNat + 1 < size := by simpa [Access.fits, fetchAt] using h
  have hnext : (fetchAt a (k + 1) 1).addr = (fetchAt a k 1).addr + 1 := by
    rw [fetchAt, BitVec.ofNat_add, ← BitVec.add_assoc]
    exact toNat_add_ofNat _ 1 (by omega)
  rw [Memory.word, hnext]
  rfl

/-- With every fetch in range the fetch phase reads the instruction the bytes decode to. -/
theorem instrAt_of_codeIs {s : State} {i : Instr} (hsize : s.cfg.memSize ≤ 65536) (hcode : CodeIs s i)
    (hfit : ∀ x ∈ fetchAccesses (s.reg .ip) i, x.fits s.cfg.memSize = true) : instrAt s = i := by
  rw [(hasFormat_of_codeIs hcode).fetches, List.forall_mem_cons] at hfit
  obtain ⟨-, hfit⟩ := hfit
  rw [(codeIs_iff s i).1 hcode, instrAt]
  cases hL : layoutAt s <;> simp only [hL, Layout.operandAccesses, List.forall_mem_cons] at hfit <;>
    simp only [readLayout, Layout.build]
  case fi => rw [word_fetchAt s.mem hsize hfit.1]
  case fir => rw [word_fetchAt s.mem hsize hfit.1]
  case fri => rw [word_fetchAt s.mem hsize hfit.2.1]
  case fii => rw [word_fetchAt s.mem hsize hfit.1, word_fetchAt s.mem hsize hfit.2.1]

theorem wf_iff (c : Config) : c.wf = true ↔ 2 ≤ c.memSize ∧ c.memSize ≤ 65536 ∧ c.opc.injective = true := by
  simp [Config.wf, and_assoc]

/-- Settles O9: every fetch in range, so the fetch phase reads the decoded instruction. -/
theorem stepRunsTheDecodedInstruction : Obligations.StepRunsTheDecodedInstruction := by
  intro s i hwf hfault hcode hfit
  obtain ⟨-, hsize, -⟩ := (wf_iff s.cfg).1 hwf
  have hi := instrAt_of_codeIs hsize hcode hfit
  have hgood := (firstBad_eq_none_iff _ _).2 hfit
  rw [← hi] at hgood ⊢
  exact step_of_good_fetches hfault hgood

/-! ### The fault record -/

/-- `exec_ends` read from the next state: a relation that respects every write the instruction may make holds up to the
state of its effect, and a raise adds the latch. -/
theorem exec_next_cases {R : State → State → Prop} {L : List Reg} {stack store : Bool} (A : Allows R L stack store)
    {i : Instr} (hL : ∀ r ∈ writtenRegs i, r ∈ L) (hst : usesStack i = true → stack = true)
    (hso : mayStore i = true → store = true) {s t : State} (h : exec i s = .next t) :
    ∃ u, R s u ∧ (t = u ∨ ∃ f, t = raise f (s.reg .ip) (some (opcodeOf s.cfg.opc i)) u) := by
  rcases exec_ends A i hL hst hso s with ⟨u, hu, he⟩ | ⟨f, u, hu, he⟩
  · exact ⟨u, hu, .inl (by rw [h] at he; cases he; rfl)⟩
  · exact ⟨u, hu, .inr ⟨f, by rw [h] at he; cases he; rfl⟩⟩

/-- What the latch holds after an instruction: what it held, or a record with the instruction's address and opcode byte. -/
theorem exec_fault_cases {i : Instr} {s t : State} (h : exec i s = .next t) :
    t.fault = s.fault ∨
      ∃ f, t.fault = some { cause := f, instrAddr := s.reg .ip, opcode := some (opcodeOf s.cfg.opc i) } := by
  have A : Allows (fun s t => t.fault = s.fault) (writtenRegs i) true true := by
    constructor <;> simp +contextual
  obtain ⟨u, hu, rfl | ⟨f, rfl⟩⟩ := exec_next_cases A (fun _ h => h) (fun _ => rfl) (fun _ => rfl) h
  · exact .inl hu
  · exact .inr ⟨f, rfl⟩

/-- A first byte in range is known when the record is made. -/
theorem recordAt_of_lt {s : State} (h : (s.reg .ip).toNat < s.cfg.memSize) (f : Fault) :
    recordAt s f = { cause := f, instrAddr := s.reg .ip, opcode := some (s.mem.byte (s.reg .ip).toNat) } := by
  rw [recordAt, if_pos h]

/-- The first fetch of an instruction that fits is that of its opcode byte. -/
theorem ip_lt_of_good_fetches {s : State} (h : firstBad s.cfg.memSize (fetchAccesses (s.reg .ip) (instrAt s)) = none) :
    (s.reg .ip).toNat < s.cfg.memSize := by
  rw [(instrAt_hasFormat s).fetches, firstBad_eq_none_iff] at h
  simpa [Access.fits, fetchAt] using h _ (List.mem_cons_self ..)

/-- Settles O13: a raise in a fetch and a raise in the effect both record the address and the opcode byte of the instruction
at `ip`. -/
theorem faultRecordNamesTheInstruction : Obligations.FaultRecordNamesTheInstruction := by
  intro s t r hfault hstep hr
  rcases step_cases s with ⟨h, -⟩ | ⟨-, x, -, h⟩ | ⟨-, hgood, h⟩
  · exact absurd hfault h
  · rw [h] at hstep
    cases hstep
    obtain rfl : recordAt s x.condition = r := by simpa [raisedAt] using hr
    rfl
  · rw [h] at hstep
    rcases exec_fault_cases hstep with hsame | ⟨f, hrec⟩
    · rw [hsame, hfault] at hr; cases hr
    · rw [(instrAt_hasFormat s).opcode, ← recordAt_of_lt (ip_lt_of_good_fetches hgood), hr] at hrec
      cases hrec
      rfl

/-! ### A table word placed at `ip` -/

/-- Bytes placed from an address on leave every byte they are not placed at. -/
theorem byte_placeBytes_of_ne {size : Nat} {b : Nat} (bs : List Byte) (m : Memory) (a : Word)
    (h : ∀ j, j < bs.length → b ≠ (a + BitVec.ofNat 16 j).toNat) : (placeBytes size m a bs).byte b = m.byte b := by
  induction bs generalizing m a with
  | nil => rfl
  | cons v rest ih =>
    have h0 : b ≠ a.toNat := by simpa using h 0 (by simp)
    rw [placeBytes, ih _ _ fun j hj => ?_]
    · split_ifs <;> simp [h0]
    · have hsucc := h (j + 1) (by simpa using hj)
      rwa [Nat.add_comm, BitVec.ofNat_add, ← BitVec.add_assoc] at hsucc

/-- Bytes placed inside the array are the bytes there. -/
theorem codeBytes_placeBytes {size : Nat} (hsize : size ≤ 65536) (bs : List Byte) (m : Memory) (a : Word)
    (h : a.toNat + bs.length ≤ size) : codeBytes (placeBytes size m a bs) bs.length a = bs := by
  induction bs generalizing m a with
  | nil => rfl
  | cons v rest ih =>
    simp only [List.length_cons] at h ⊢
    rw [placeBytes, if_pos (by omega), codeBytes, byte_placeBytes_of_ne rest _ _ fun j hj => ?apart]
    case apart =>
      have hstep : a + 1 + BitVec.ofNat 16 j = a + BitVec.ofNat 16 (1 + j) := by
        rw [BitVec.ofNat_add, ← BitVec.add_assoc]; rfl
      rw [hstep, toNat_add_ofNat a _ (by omega)]
      omega
    rw [byte_setByte, if_pos rfl]
    cases rest with
    | nil => rfl
    | cons w rest =>
      have hnext : (a + 1).toNat = a.toNat + 1 := toNat_add_ofNat a 1 (by simp at h; omega)
      rw [ih _ _ (by omega)]

/-- With five bytes of room at `a` every fetch of every instruction there is in range. -/
theorem fetches_fit {size : Nat} {a : Word} (hsize : size ≤ 65536) (h : a.toNat + 5 ≤ size) (i : Instr) :
    ∀ x ∈ fetchAccesses a i, x.fits size = true := by
  have hfit : ∀ k n, k < 5 → k + n ≤ 5 → (fetchAt a k n).fits size = true := by
    intro k n hk hkn
    have haddr : (a + BitVec.ofNat 16 k).toNat = a.toNat + k := toNat_add_ofNat a k (by omega)
    simp only [Access.fits, fetchAt, haddr, decide_eq_true_eq]
    omega
  cases i <;> simp only [fetchAccesses, List.forall_mem_cons, hfit, Nat.reduceLT, Nat.reduceAdd, Nat.reduceLeDiff,
    List.not_mem_nil, false_imp_iff, implies_true, and_self]

/-- Settles O45: the word's bytes are the bytes at `ip`, all its fetches have room, and placing it changes neither `ip` nor
the latch. -/
theorem fetchWordIsRunNext : Obligations.FetchWordIsRunNext := by
  intro s nbits w i rest hwf hfault hroom hdec
  obtain ⟨-, hsize, -⟩ := (wf_iff s.cfg).1 hwf
  have hbytes : codeBytes (s.withFetchWord nbits w).mem 5 (s.reg .ip) = tableBytes nbits w :=
    codeBytes_placeBytes hsize (tableBytes nbits w) s.mem (s.reg .ip) hroom
  have hip : (s.withFetchWord nbits w).reg .ip = s.reg .ip := setMem_reg _ _ _
  have hcode : CodeIs (s.withFetchWord nbits w) i := ⟨rest, by rw [hip, hbytes]; exact hdec⟩
  exact stepRunsTheDecodedInstruction _ i hwf hfault hcode (fetches_fit hsize hroom i)

end Sys2Proof.Machine
end

section
/-! The memory array (spec/20_memory.md): accesses out of range, and the canonical form of the cells. -/

namespace Sys2Proof.Machine

/-! ### Accesses out of range (R36) -/

/-- Settles O16: each access out of range has its equation. -/
theorem accessesOutOfRangeTransferNothing : Obligations.AccessesOutOfRangeTransferNothing := by
  refine fun s a => ⟨fun h => ⟨?_, fun v => ?_⟩, fun h => ⟨?_, fun v => ?_⟩⟩
  · rw [memRead8_eq, if_neg (Nat.not_lt.2 h)]
  · rw [memWrite8_eq, if_neg (Nat.not_lt.2 h)]
  · rw [memRead16_eq, if_neg (Nat.not_lt.2 h)]
  · rw [memWrite16_eq, if_neg (Nat.not_lt.2 h)]

/-! ### The canonical form -/

theorem cellsWf_cons {lo : Option Nat} {a : Nat} {v : Byte} {rest : List Host.Cell}
    (h : cellsWf lo ((a, v) :: rest) = true) : v ≠ unwrittenByte ∧ cellsWf (some a) rest = true := by
  simp only [cellsWf, Bool.and_eq_true, decide_eq_true_eq] at h
  exact ⟨h.1.2, h.2⟩

/-- The lowest listed address is the lowest that does not read as an unwritten byte. -/
theorem cellsRead_of_lt_head {a b : Nat} {v : Byte} {rest : List Host.Cell} (hlt : b < a)
    (h : cellsWf (some a) rest = true) : cellsRead ((a, v) :: rest) b = unwrittenByte := by
  rw [cellsRead, if_neg (by omega)]
  exact cellsRead_below rest b (cellsWf_lower rest a b (by omega) h)

theorem cellsRead_head (a : Nat) (v : Byte) (rest : List Host.Cell) : cellsRead ((a, v) :: rest) a = v := if_pos rfl

/-- Canonical lists that read the same are equal: each lists the lowest address that reads as written, with what it reads,
and the tails read the same. -/
theorem cells_eq_of_reads (cells cells' : List Host.Cell) (lo lo' : Option Nat) (hw : cellsWf lo cells = true)
    (hw' : cellsWf lo' cells' = true) (hread : ∀ a, cellsRead cells' a = cellsRead cells a) : cells' = cells := by
  induction cells generalizing cells' lo lo' with
  | nil =>
    cases cells' with
    | nil => rfl
    | cons c' rest' =>
      obtain ⟨a', v'⟩ := c'
      exact absurd ((cellsRead_head a' v' rest').symm.trans (hread a')) (cellsWf_cons hw').1
  | cons c rest ih =>
    obtain ⟨a, v⟩ := c
    obtain ⟨hv, hrest⟩ := cellsWf_cons hw
    cases cells' with
    | nil => exact absurd ((cellsRead_head a v rest).symm.trans (hread a).symm) hv
    | cons c' rest' =>
      obtain ⟨a', v'⟩ := c'
      obtain ⟨hv', hrest'⟩ := cellsWf_cons hw'
      have ha : a' = a := by
        rcases Nat.lt_trichotomy a' a with hlt | heq | hgt
        · have := hread a'
          rw [cellsRead_head, cellsRead_of_lt_head hlt hrest] at this
          exact absurd this hv'
        · exact heq
        · have := hread a
          rw [cellsRead_head, cellsRead_of_lt_head hgt hrest'] at this
          exact absurd this.symm hv
      subst ha
      have hvv : v' = v := by simpa only [cellsRead_head] using hread a'
      have htail : ∀ b, cellsRead rest' b = cellsRead rest b := by
        intro b
        by_cases hb : b = a'
        · rw [hb, cellsRead_below rest' a' hrest', cellsRead_below rest a' hrest]
        · simpa only [cellsRead, hb, if_false] using hread b
      rw [hvv, ih rest' (some a') (some a') hrest hrest' htail]

/-- Settles O17: a memory is its list of cells. -/
theorem equalReadsMeanEqualMemories : Obligations.EqualReadsMeanEqualMemories := by
  rintro ⟨cells⟩ ⟨cells'⟩ hw hw' hread
  rw [cells_eq_of_reads cells cells' none none hw hw' hread]

end Sys2Proof.Machine
end

section
/-! The moves, the sum, the jump, the stack instructions and the unknown opcode (spec/41_move.md to spec/44_stack.md and
spec/46_undefined_opcode.md): for each the state it answers, and from that its statement. -/

namespace Sys2Proof.Machine

/-! ### The state each instruction answers -/

/-- Operands are read once `ip` stands past the instruction (spec/40_engine.md R75, R76). -/
theorem advanceIp_instrLength_reg (i : Instr) (s : State) (r : Reg) :
    (advanceIp (instrLength i) s).reg r = operandValue i s r := advanceIp_reg s _ r

theorem advanceIp_reg_of_ne {n : Nat} {s : State} {q : Reg} (h : q ≠ .ip) : (advanceIp n s).reg q = s.reg q := by
  rw [advanceIp_reg, if_neg h]

/-- The state in which instruction `i`, its bytes fetched, raises `f` before any effect. -/
def raisedBy (i : Instr) (f : Fault) (s : State) : State :=
  raise f (s.reg .ip) (some (opcodeOf s.cfg.opc i)) (advanceIp (instrLength i) s)

section
variable (s : State)

theorem exec_movLitReg (lit : Word) (d : Reg) : exec (.movLitReg lit d) s = .next ((advanceIp 4 s).setReg d lit) := rfl

theorem exec_movRegReg (src d : Reg) : exec (.movRegReg src d) s =
    .next ((advanceIp 3 s).setReg d (operandValue (.movRegReg src d) s src)) := by
  rw [← advanceIp_instrLength_reg]; rfl

theorem exec_movRegMem (src : Reg) (addr : Word) : exec (.movRegMem src addr) s =
    if addr.toNat + 1 < s.cfg.memSize
      then .next ((advanceIp 4 s).setMem (s.mem.setWord addr.toNat (operandValue (.movRegMem src addr) s src)))
      else .next (raisedBy (.movRegMem src addr) (.outOfBounds addr.toNat 2 .write) s) := by
  have heff := memWrite16_eq addr.toNat (operandValue (.movRegMem src addr) s src) (advanceIp 4 s)
  rw [advanceIp_cfg, advanceIp_mem, ← advanceIp_instrLength_reg] at heff
  rw [← advanceIp_instrLength_reg]
  split_ifs at heff ⊢
  · exact runInstr_ok heff
  · exact runInstr_error heff

theorem exec_movMemReg (addr : Word) (d : Reg) : exec (.movMemReg addr d) s =
    if addr.toNat + 1 < s.cfg.memSize then .next ((advanceIp 4 s).setReg d (s.mem.word addr.toNat))
      else .next (raisedBy (.movMemReg addr d) (.outOfBounds addr.toNat 2 .read) s) := by
  have heff : (memRead16 addr.toNat >>= writeReg d) (advanceIp 4 s) = _ := op_bind _ _ _
  rw [memRead16_eq, advanceIp_cfg, advanceIp_mem] at heff
  split_ifs at heff ⊢
  · exact runInstr_ok heff
  · exact runInstr_error heff

theorem exec_addRegReg (p q : Reg) : exec (.addRegReg p q) s = .next ((advanceIp 3 s).setReg .acc
    (operandValue (.addRegReg p q) s p + operandValue (.addRegReg p q) s q)) := by
  rw [← advanceIp_instrLength_reg, ← advanceIp_instrLength_reg]; rfl

theorem exec_jmpNotEq (val addr : Word) : exec (.jmpNotEq val addr) s =
    .next (if val ≠ s.reg .acc then (advanceIp 5 s).setReg .ip addr else advanceIp 5 s) := by
  have heff : (if jumpTaken val ((advanceIp 5 s).reg .acc) then writeReg .ip addr else pure () : Op Unit) (advanceIp 5 s) =
      .ok () (if val ≠ s.reg .acc then (advanceIp 5 s).setReg .ip addr else advanceIp 5 s) := by
    by_cases h : val = s.reg .acc <;> simp [jumpTaken, h]
  exact runInstr_ok heff

theorem exec_pshLit (lit : Word) : exec (.pshLit lit) s =
    if (s.reg .sp).toNat + 1 < s.cfg.memSize then .next (pushed lit (advanceIp 3 s))
      else .next (raisedBy (.pshLit lit) (.outOfBounds (s.reg .sp).toNat 2 .write) s) := by
  have heff := push_eq lit (advanceIp 3 s)
  rw [advanceIp_cfg, advanceIp_reg_of_ne (by decide)] at heff
  split_ifs at heff ⊢
  · exact runInstr_ok heff
  · exact runInstr_error heff

theorem exec_pshReg (r : Reg) : exec (.pshReg r) s =
    if (s.reg .sp).toNat + 1 < s.cfg.memSize then .next (pushed (operandValue (.pshReg r) s r) (advanceIp 2 s))
      else .next (raisedBy (.pshReg r) (.outOfBounds (s.reg .sp).toNat 2 .write) s) := by
  have heff := push_eq (operandValue (.pshReg r) s r) (advanceIp 2 s)
  rw [advanceIp_cfg, advanceIp_reg_of_ne (by decide), ← advanceIp_instrLength_reg] at heff
  rw [← advanceIp_instrLength_reg]
  split_ifs at heff ⊢
  · exact runInstr_ok heff
  · exact runInstr_error heff

theorem exec_pop (r : Reg) : exec (.pop r) s =
    if s.cfg.memSize - 2 < (s.reg .sp).toNat + 2
      then .next (raisedBy (.pop r) (.stackUnderflow ((s.reg .sp).toNat + 2)) s)
      else .next ((popped (advanceIp 2 s)).setReg r (s.mem.word ((s.reg .sp).toNat + 2))) := by
  have heff : (pop >>= writeReg r) (advanceIp 2 s) = _ := op_bind _ _ _
  rw [pop_eq, advanceIp_cfg, advanceIp_mem, advanceIp_reg_of_ne (by decide)] at heff
  split_ifs at heff ⊢
  · exact runInstr_error heff
  · exact runInstr_ok heff

theorem exec_unknownOpcode_of_nop (b : Byte) (h : s.cfg.unknownOpcode = .nop) :
    exec (.unknownOpcode b) s = .next (advanceIp 1 s) := by
  have hpolicy : unknownOpcodePolicy (advanceIp 1 s) = .ok .nop (advanceIp 1 s) := by
    rw [unknownOpcodePolicy, advanceIp_cfg, h]
  exact runInstr_ok (by rw [op_bind, instrLength, hpolicy]; rfl)

theorem exec_unknownOpcode_of_fault (b : Byte) (h : s.cfg.unknownOpcode = .fault) :
    exec (.unknownOpcode b) s = .next (raisedBy (.unknownOpcode b) (.unknownOpcode b) s) := by
  have hpolicy : unknownOpcodePolicy (advanceIp 1 s) = .ok .fault (advanceIp 1 s) := by
    rw [unknownOpcodePolicy, advanceIp_cfg, h]
  exact runInstr_error (by rw [op_bind, instrLength, hpolicy]; rfl)

/-! ### What those states leave as it was -/

theorem raisedBy_frame (i : Instr) (f : Fault) :
    (raisedBy i f s).fault = some { cause := f, instrAddr := s.reg .ip, opcode := some (opcodeOf s.cfg.opc i) } ∧
      SameBytes s (raisedBy i f s) ∧
      (∀ q, (raisedBy i f s).reg q = if q = .ip then s.reg .ip + BitVec.ofNat 16 (instrLength i) else s.reg q) ∧
      (raisedBy i f s).fsz = s.fsz ∧ (raisedBy i f s).cfg = s.cfg := by
  simp [raisedBy, SameBytes]

theorem advanceIp_setReg_frame (n : Nat) (d : Reg) (v : Word) :
    (∀ q, ((advanceIp n s).setReg d v).reg q =
      if q = d then v else if q = .ip then s.reg .ip + BitVec.ofNat 16 n else s.reg q) ∧
      ((advanceIp n s).setReg d v).fsz = s.fsz ∧ SameCfgAndFault s ((advanceIp n s).setReg d v) ∧
      SameBytes s ((advanceIp n s).setReg d v) := by
  simp [SameCfgAndFault, SameBytes]

theorem advanceIp_setWord_frame (n : Nat) (a : Nat) (v : Word) (t : State)
    (ht : t = (advanceIp n s).setMem (s.mem.setWord a v)) :
    t.mem.byte a = hi8 v ∧ t.mem.byte (a + 1) = lo8 v ∧ (∀ b, b ≠ a → b ≠ a + 1 → t.mem.byte b = s.mem.byte b) ∧
      (∀ q, t.reg q = if q = .ip then s.reg .ip + BitVec.ofNat 16 n else s.reg q) ∧
      t.fsz = s.fsz ∧ SameCfgAndFault s t := by
  subst ht
  simp +contextual [SameCfgAndFault]

theorem pushed_advanceIp_frame (n : Nat) (v : Word) (t : State) (ht : t = pushed v (advanceIp n s)) :
    t.mem.byte (s.reg .sp).toNat = hi8 v ∧ t.mem.byte ((s.reg .sp).toNat + 1) = lo8 v ∧
      (∀ a, a ≠ (s.reg .sp).toNat → a ≠ (s.reg .sp).toNat + 1 → t.mem.byte a = s.mem.byte a) ∧
      (∀ q, t.reg q = if q = .ip then s.reg .ip + BitVec.ofNat 16 n else if q = .sp then s.reg .sp - 2 else s.reg q) ∧
      t.fsz = s.fsz + 2 ∧ SameCfgAndFault s t := by
  subst ht
  refine ⟨by simp, by simp, by simp +contextual, fun q => ?_, by simp, by simp [SameCfgAndFault]⟩
  by_cases hq : q = .sp
  · subst hq; rfl
  · simp [hq]

theorem popped_advanceIp_frame (n : Nat) (r : Reg) (v : Word) (t : State) (ht : t = (popped (advanceIp n s)).setReg r v) :
    (∀ q, t.reg q = if q = r then v else if q = .ip then s.reg .ip + BitVec.ofNat 16 n
        else if q = .sp then s.reg .sp + 2 else s.reg q) ∧
      t.fsz = s.fsz - 2 ∧ SameCfgAndFault s t ∧ SameBytes s t := by
  subst ht
  refine ⟨fun q => ?_, by simp, by simp [SameCfgAndFault], by simp [SameBytes]⟩
  by_cases hq : q = .sp
  · subst hq; simp
  · simp [hq]

end

/-! ### The moves (spec/41_move.md) -/

/-- Settles O19: a register write in the state past the instruction. -/
theorem movLitRegWritesTheLiteral : Obligations.MovLitRegWritesTheLiteral := fun lit d s =>
  ⟨rfl, rfl, fetchRaisesAtItsFirstBadAccess _, _, exec_movLitReg s lit d, advanceIp_setReg_frame s 4 d lit⟩

/-- Settles O20: a register write of the operand's value. -/
theorem movRegRegCopiesTheRegister : Obligations.MovRegRegCopiesTheRegister := fun src d s =>
  ⟨rfl, rfl, fetchRaisesAtItsFirstBadAccess _, _, exec_movRegReg s src d, advanceIp_setReg_frame s 3 d _⟩

/-- Settles O21: with room a word write in the state past the instruction, else a raise there. -/
theorem movRegMemStoresTheWord : Obligations.MovRegMemStoresTheWord := by
  intro src addr s
  refine ⟨rfl, rfl, fetchRaisesAtItsFirstBadAccess _, fun hroom => ?_, fun hroom => ?_⟩
  · exact ⟨_, (exec_movRegMem s src addr).trans (if_pos hroom), advanceIp_setWord_frame s 4 _ _ _ rfl⟩
  · exact ⟨_, (exec_movRegMem s src addr).trans (if_neg (Nat.not_lt.2 hroom)), raisedBy_frame s _ _⟩

/-- Settles O22: with room a register write of the word at the address, else a raise. -/
theorem movMemRegLoadsTheWord : Obligations.MovMemRegLoadsTheWord := by
  refine fun addr d s => ⟨fun hroom => ?_, fun hroom => ?_⟩
  · exact ⟨_, (exec_movMemReg s addr d).trans (if_pos hroom), advanceIp_setReg_frame s 4 d _⟩
  · exact ⟨_, (exec_movMemReg s addr d).trans (if_neg (Nat.not_lt.2 hroom)), raisedBy_frame s _ _⟩

/-- Settles O18: the store is where `ip` stands after it, so both fetches are in range and read the bytes just written. -/
theorem storedWordIsFetchedNext : Obligations.StoredWordIsFetchedNext := by
  intro s t r addr hroom hexec hnext
  rw [exec_movRegMem, if_pos hroom] at hexec
  cases hexec
  have hip : (advanceIp 4 s).reg .ip = addr := hnext
  constructor
  · rw [fetch8_eq, setMem_reg, hip, setMem_cfg, advanceIp_cfg, if_pos (by omega), setMem_mem, byte_setWord_high_first,
      if_pos rfl]
  · rw [fetch16_eq, setMem_reg, hip, setMem_cfg, advanceIp_cfg, if_pos hroom, setMem_mem, word_setWord]

/-! ### The sum (spec/42_add.md) -/

/-- Settles O23: the sum of words is the sum of their values modulo 65536. -/
theorem addRegRegSumsIntoAcc : Obligations.AddRegRegSumsIntoAcc := by
  intro p q s
  obtain ⟨hreg, hframe⟩ := advanceIp_setReg_frame s 3 .acc
    (operandValue (.addRegReg p q) s p + operandValue (.addRegReg p q) s q)
  refine ⟨rfl, rfl, fetchRaisesAtItsFirstBadAccess _, _, exec_addRegReg s p q, ?_, fun r hr => ?_, hframe⟩
  · rw [hreg, if_pos rfl, BitVec.toNat_add]
  · rw [hreg, if_neg hr]; rfl

/-! ### The jump (spec/43_jump.md) -/

/-- A running machine whose `ip` is outside memory raises at the opcode fetch (spec/60_exceptions.md R124). -/
theorem step_of_ip_outside {s : State} (h : s.fault = none) (hout : s.cfg.memSize ≤ (s.reg .ip).toNat) :
    step s = .next (s.setFault (some
      { cause := .outOfBounds (s.reg .ip).toNat 1 .read, instrAddr := s.reg .ip, opcode := none })) := by
  have haddr : (fetchAt (s.reg .ip) 0 1).addr = (s.reg .ip).toNat := by simp [fetchAt]
  have hbad : firstBad s.cfg.memSize (fetchAccesses (s.reg .ip) (instrAt s)) = some (fetchAt (s.reg .ip) 0 1) := by
    rw [(instrAt_hasFormat s).fetches, firstBad_cons, haddr]
    exact if_neg (Nat.not_lt.2 hout)
  rw [step_of_bad_fetch h hbad, raisedAt, recordAt, if_neg (Nat.not_lt.2 hout), ← advanceIp_eq_setReg_addr]
  simp [advanceIp, setReg_self, Access.condition, haddr]
  rfl

/-- Settles O24: `ip` is written when the jump is taken; nothing looks at the target before the next step. -/
theorem jmpNotEqJumpsWhenAccDiffers : Obligations.JmpNotEqJumpsWhenAccDiffers := by
  intro val addr s
  refine ⟨rfl, rfl, fetchRaisesAtItsFirstBadAccess _, _, exec_jmpNotEq s val addr, ?_⟩
  by_cases htaken : val ≠ s.reg .acc
  · rw [if_pos htaken]
    obtain ⟨hreg, hfsz, hsame, hbytes⟩ := advanceIp_setReg_frame s 5 .ip addr
    refine ⟨fun q => ?_, hfsz, hsame, hbytes, fun _ hout hfault => ?_⟩
    · rw [hreg, if_pos htaken]
      split_ifs <;> rfl
    · have hip : ((advanceIp 5 s).setReg .ip addr).reg .ip = addr := by rw [hreg, if_pos rfl]
      rw [step_of_ip_outside (hsame.2.trans hfault) (by rw [hip, hsame.1]; exact hout), hip]
  · rw [if_neg htaken]
    refine ⟨fun q => ?_, ?_, ?_, ?_, fun h => absurd h htaken⟩
    · rw [advanceIp_reg, if_neg htaken]; rfl
    · exact advanceIp_fsz s 5
    · exact ⟨advanceIp_cfg s 5, advanceIp_fault s 5⟩
    · exact fun a => by rw [advanceIp_mem]

/-! ### The stack instructions (spec/44_stack.md) -/

/-- Settles O25: with room a push in the state past the instruction, else a raise there. -/
theorem pshLitPushesTheLiteral : Obligations.PshLitPushesTheLiteral := by
  intro lit s
  refine ⟨rfl, rfl, fetchRaisesAtItsFirstBadAccess _, fun hroom => ?_, fun hroom => ?_⟩
  · exact ⟨_, (exec_pshLit s lit).trans (if_pos hroom), pushed_advanceIp_frame s 3 lit _ rfl⟩
  · exact ⟨_, (exec_pshLit s lit).trans (if_neg (Nat.not_lt.2 hroom)), raisedBy_frame s _ _⟩

/-- Settles O26: with room a push of the operand's value, else a raise. -/
theorem pshRegPushesTheRegister : Obligations.PshRegPushesTheRegister := by
  refine fun r s => ⟨fun hroom => ?_, fun hroom => ?_⟩
  · exact ⟨_, (exec_pshReg s r).trans (if_pos hroom), pushed_advanceIp_frame s 2 _ _ rfl⟩
  · exact ⟨_, (exec_pshReg s r).trans (if_neg (Nat.not_lt.2 hroom)), raisedBy_frame s _ _⟩

/-- Settles O27: with a word on the stack a pop and then the register write, else a raise. -/
theorem popReadsTheWordAboveSp : Obligations.PopReadsTheWordAboveSp := by
  intro r s
  refine ⟨rfl, rfl, fetchRaisesAtItsFirstBadAccess _, fun hroom => ?_, fun hroom => ?_⟩
  · exact ⟨_, (exec_pop s r).trans (if_neg (Nat.not_lt.2 hroom)), popped_advanceIp_frame s 2 r _ _ rfl⟩
  · exact ⟨_, (exec_pop s r).trans (if_pos hroom), raisedBy_frame s _ _⟩

/-! ### The unknown opcode (spec/46_undefined_opcode.md) -/

/-- Settles O31: the state past the byte. -/
theorem unknownOpcodeOnlyAdvancesIp : Obligations.UnknownOpcodeOnlyAdvancesIp := fun b s hpolicy =>
  ⟨_, exec_unknownOpcode_of_nop s b hpolicy, advanceIp_reg s 1, advanceIp_fsz s 1,
    ⟨advanceIp_cfg s 1, advanceIp_fault s 1⟩, fun a => by rw [advanceIp_mem]⟩

/-- Settles O32: the raise in the state past the byte. -/
theorem unknownOpcodeRaisesUnderTheOtherPolicy : Obligations.UnknownOpcodeRaisesUnderTheOtherPolicy := by
  intro b s hpolicy
  obtain ⟨hfault, hbytes, hreg, hfsz, hcfg⟩ := raisedBy_frame s (.unknownOpcode b) (.unknownOpcode b)
  exact ⟨_, exec_unknownOpcode_of_fault s b hpolicy, hfault, hreg, hfsz, hcfg, hbytes⟩

end Sys2Proof.Machine
end

section
/-! Calls and returns (spec/45_call_return.md): the frame a call makes, where it raises, what a return takes back, and the
two together under the calling protocol. -/

namespace Sys2Proof.Machine

/-! ### The effect of both calls -/

/-- What CAL_LIT and CAL_REG do once the target is known (R102, R103). -/
def callTo (target : Word) : Op Unit := do
  pushState
  writeReg .ip target

theorem exec_calLit (addr : Word) (s : State) : exec (.calLit addr) s = runInstr (.calLit addr) (callTo addr) s := rfl

theorem exec_calReg (r : Reg) (s : State) :
    exec (.calReg r) s = runInstr (.calReg r) (callTo (operandValue (.calReg r) s r)) s := by
  rw [← advanceIp_instrLength_reg]; rfl

/-- What a call of `n` bytes from `s` leaves: the ten words of the frame in their slots, `sp` and `fp` below them, `FSZ` zero
and `ip` at the target. -/
structure FrameMade (s : State) (n : Nat) (target : Word) (t : State) : Prop where
  words : ∀ k v, (frameWords (advanceIp n s))[k]? = some v → t.mem.word (frameSlot s k) = v
  bytes : ∀ a, (∀ k, k < 10 → a ≠ frameSlot s k ∧ a ≠ frameSlot s k + 1) → t.mem.byte a = s.mem.byte a
  regs : ∀ q, t.reg q = if q = .ip then target else if q = .sp ∨ q = .fp then s.reg .sp - 20 else s.reg q
  fsz : t.fsz = 0
  same : SameCfgAndFault s t

/-- What a call of `n` bytes from `s` leaves when its `k`-th push is the first without room: the `k` words before it, and
`sp` and `FSZ` moved by them. -/
structure FrameBroken (s : State) (n k : Nat) (t : State) : Prop where
  words : ∀ j r, j < k → savedRegs[j]? = some r → t.mem.word (frameSlot s j) = (advanceIp n s).reg r
  bytes : ∀ a, (∀ j, j < k → a ≠ frameSlot s j ∧ a ≠ frameSlot s j + 1) → t.mem.byte a = s.mem.byte a
  regs : ∀ q, t.reg q = if q = .ip then s.reg .ip + BitVec.ofNat 16 n
    else if q = .sp then s.reg .sp - BitVec.ofNat 16 (2 * k) else s.reg q
  fsz : t.fsz = s.fsz + BitVec.ofNat 16 (2 * k)
  cfg : t.cfg = s.cfg

theorem frameSlot_advanceIp (n : Nat) (s : State) (k : Nat) : frameSlot (advanceIp n s) k = frameSlot s k := by
  rw [frameSlot, advanceIp_reg_of_ne (by decide), frameSlot]

/-- The first nine words of a frame are the saved registers (R100). -/
theorem frameWords_of_savedRegs {s : State} {j : Nat} {r : Reg} (h : savedRegs[j]? = some r) :
    (frameWords s)[j]? = some (s.reg r) := by
  have hj : j < (savedRegs.map s.reg).length := by
    rw [List.length_map]; exact (List.getElem?_eq_some_iff.1 h).1
  have hsplit : frameWords s = savedRegs.map s.reg ++ [s.fsz + 20] := rfl
  rw [hsplit, List.getElem?_append_left hj, List.getElem?_map, h]
  rfl

/-- A call with room for its frame. -/
theorem callTo_ok (n : Nat) (target : Word) (s : State) (hsize : s.cfg.memSize ≤ 65536)
    (hroom : ∀ k, k < 10 → frameSlot s k + 1 < s.cfg.memSize) :
    ∃ t, callTo target (advanceIp n s) = .ok () t ∧ FrameMade s n target t := by
  obtain ⟨u, hu, hcfg, hfault, hreg, -, hwords, hbytes⟩ := pushList_ok (frameWords (advanceIp n s)) (advanceIp n s)
    (by simp [frameWords]) (by simpa using hsize)
    (fun k hk => by rw [frameSlot_advanceIp, advanceIp_cfg]; exact hroom k hk)
  simp only [frameSlot_advanceIp, advanceIp_cfg, advanceIp_fault, advanceIp_mem] at hcfg hfault hwords hbytes
  have hsp : u.reg .sp = s.reg .sp - 20 := by rw [hreg, if_pos rfl, advanceIp_reg_of_ne (by decide)]; rfl
  refine ⟨((u.setReg .fp (u.reg .sp)).setFsz 0).setReg .ip target, ?_, ?_⟩
  · rw [callTo, op_bind, pushState_eq, hu]; rfl
  · refine ⟨by simpa using hwords, fun a ha => by simpa using hbytes a ha, fun q => ?_, by simp,
      by simp [SameCfgAndFault, hcfg, hfault]⟩
    by_cases hip : q = .ip
    · simp [hip]
    by_cases hsp' : q = .sp
    · simp [hsp', hsp]
    by_cases hfp : q = .fp
    · simp [hfp, hsp]
    · simp [hip, hsp', hfp, hreg]

/-- A call whose `k`-th push is the first without room. -/
theorem callTo_error (n : Nat) (target : Word) (s : State) (k : Nat) (hsize : s.cfg.memSize ≤ 65536) (hk : k < 10)
    (hbefore : ∀ j, j < k → frameSlot s j + 1 < s.cfg.memSize) (hbad : s.cfg.memSize ≤ frameSlot s k + 1) :
    ∃ t, callTo target (advanceIp n s) = .error (.outOfBounds (frameSlot s k) 2 .write) t ∧
      FrameBroken s n k t := by
  have hlen : ((frameWords (advanceIp n s)).take k).length = k := by
    simp only [List.length_take, frameWords, List.length_cons, List.length_nil]; omega
  obtain ⟨u, hu, herr⟩ := pushList_error (frameWords (advanceIp n s)) (advanceIp n s) k hk
    (fun j hj => by rw [frameSlot_advanceIp, advanceIp_cfg]; exact hbefore j hj)
    (by rw [frameSlot_advanceIp, advanceIp_cfg]; omega)
  obtain ⟨v, hv, hcfg, -, hreg, hfsz, hwords, hbytes⟩ := pushList_ok _ (advanceIp n s) (by rw [hlen]; omega)
    (by simpa using hsize) (fun j hj => by rw [frameSlot_advanceIp, advanceIp_cfg]; exact hbefore j (by omega))
  obtain rfl : u = v := by rw [hu] at hv; cases hv; rfl
  simp only [frameSlot_advanceIp, advanceIp_cfg, advanceIp_mem, advanceIp_fsz, hlen]
    at herr hcfg hreg hfsz hwords hbytes
  refine ⟨u, by rw [callTo, op_bind, pushState_eq, herr], fun j r hj hr => hwords j _ ?_, hbytes, fun q => ?_, hfsz,
    hcfg⟩
  · rw [List.getElem?_take_of_lt hj]
    exact frameWords_of_savedRegs hr
  · by_cases hsp : q = .sp
    · simp [hreg, hsp]
    · simp [hreg, hsp]

section
variable {i : Instr} {target : Word} {s : State} (hcall : exec i s = runInstr i (callTo target) s) (hwf : s.cfg.wf = true)
include hcall hwf

theorem exec_call_ok (hroom : ∀ k, k < 10 → frameSlot s k + 1 < s.cfg.memSize) :
    ∃ t, exec i s = .next t ∧ FrameMade s (instrLength i) target t := by
  obtain ⟨-, hsize, -⟩ := (wf_iff s.cfg).1 hwf
  obtain ⟨t, ht, hframe⟩ := callTo_ok (instrLength i) target s hsize hroom
  exact ⟨t, hcall.trans (runInstr_ok ht), hframe⟩

theorem exec_call_error {k : Nat} (hk : k < 10) (hbefore : ∀ j, j < k → frameSlot s j + 1 < s.cfg.memSize)
    (hbad : s.cfg.memSize ≤ frameSlot s k + 1) :
    ∃ t, exec i s = .next t ∧
      t.fault = some { cause := .outOfBounds (frameSlot s k) 2 .write, instrAddr := s.reg .ip,
                       opcode := some (opcodeOf s.cfg.opc i) } ∧
      FrameBroken s (instrLength i) k t := by
  obtain ⟨-, hsize, -⟩ := (wf_iff s.cfg).1 hwf
  obtain ⟨t, ht, hframe⟩ := callTo_error (instrLength i) target s k hsize hk hbefore hbad
  refine ⟨_, hcall.trans (runInstr_error ht), rfl, ?_⟩
  exact ⟨by simpa using hframe.words, by simpa using hframe.bytes, by simpa using hframe.regs, by simpa using hframe.fsz,
    by simpa using hframe.cfg⟩

end

theorem FrameBroken.words_operandValue {i : Instr} {s t : State} {k : Nat} (h : FrameBroken s (instrLength i) k t) (j : Nat)
    (r : Reg) (hj : j < k) (hr : savedRegs[j]? = some r) : t.mem.word (frameSlot s j) = operandValue i s r :=
  (h.words j r hj hr).trans (advanceIp_instrLength_reg i s r)

/-- The frame word by word, in the order of the pushes (R100), and what the call leaves beside it. -/
theorem FrameMade.contents {s t : State} {n : Nat} {target : Word} (h : FrameMade s n target t) :
    t.mem.word (frameSlot s 0) = s.reg .r1 ∧ t.mem.word (frameSlot s 1) = s.reg .r2 ∧
      t.mem.word (frameSlot s 2) = s.reg .r3 ∧ t.mem.word (frameSlot s 3) = s.reg .r4 ∧
      t.mem.word (frameSlot s 4) = s.reg .r5 ∧ t.mem.word (frameSlot s 5) = s.reg .r6 ∧
      t.mem.word (frameSlot s 6) = s.reg .r7 ∧ t.mem.word (frameSlot s 7) = s.reg .r8 ∧
      t.mem.word (frameSlot s 8) = s.reg .ip + BitVec.ofNat 16 n ∧ t.mem.word (frameSlot s 9) = s.fsz + 20 ∧
      (∀ a, (∀ k, k < 10 → a ≠ frameSlot s k ∧ a ≠ frameSlot s k + 1) → t.mem.byte a = s.mem.byte a) ∧
      (∀ q, t.reg q = if q = .ip then target else if q = .sp ∨ q = .fp then s.reg .sp - 20 else s.reg q) ∧
      t.fsz = 0 ∧ SameCfgAndFault s t :=
  ⟨h.words 0 _ rfl, h.words 1 _ rfl, h.words 2 _ rfl, h.words 3 _ rfl, h.words 4 _ rfl, h.words 5 _ rfl, h.words 6 _ rfl,
    h.words 7 _ rfl, h.words 8 _ rfl, h.words 9 _ rfl, h.bytes, h.regs, h.fsz, h.same⟩

/-- Settles O28: both outcomes of a call, with the literal as target. -/
theorem calLitPushesTheFrameAndJumps : Obligations.CalLitPushesTheFrameAndJumps := by
  intro addr s hwf
  refine ⟨rfl, rfl, fetchRaisesAtItsFirstBadAccess _, fun hroom => ?_, fun k hk hbefore hbad => ?_⟩
  · obtain ⟨t, ht, h⟩ := exec_call_ok (exec_calLit addr s) hwf hroom
    exact ⟨t, ht, h.contents⟩
  · obtain ⟨t, ht, hfault, h⟩ := exec_call_error (exec_calLit addr s) hwf hk hbefore hbad
    exact ⟨t, ht, hfault, h.words_operandValue, h.bytes, h.regs, h.fsz, h.cfg⟩

/-- Settles O29: both outcomes of a call, with the register's value before the push as target. -/
theorem calRegPushesTheFrameAndJumps : Obligations.CalRegPushesTheFrameAndJumps := by
  refine fun r s hwf => ⟨fun hroom => ?_, fun k hk hbefore hbad => ?_⟩
  · obtain ⟨t, ht, h⟩ := exec_call_ok (exec_calReg r s) hwf hroom
    exact ⟨t, ht, h.contents⟩
  · obtain ⟨t, ht, hfault, h⟩ := exec_call_error (exec_calReg r s) hwf hk hbefore hbad
    exact ⟨t, ht, hfault, h.words_operandValue, h.bytes, h.regs, h.fsz, h.cfg⟩

/-! ### The return -/

theorem exec_ret (s : State) : exec .ret s = runInstr .ret popState s := rfl

/-- The state in which RET unwinds differs from the one before its fetch in `ip` alone, which no pop reads. -/
theorem returnCount_advanceIp (n : Nat) (s : State) : returnCount (advanceIp n s) = returnCount s := by
  rw [returnCount, advanceIp_mem, advanceIp_reg_of_ne (by decide), returnCount]

/-- Settles O30: `PopState` in the state past RET, with room for all its pops and without. -/
theorem retUnwindsTheFrame : Obligations.RetUnwindsTheFrame := by
  intro s hwf
  obtain ⟨hmin, hsize, -⟩ := (wf_iff s.cfg).1 hwf
  have hfp : (advanceIp 1 s).reg .fp = s.reg .fp := advanceIp_reg_of_ne (by decide)
  have hacc : (advanceIp 1 s).reg .acc = s.reg .acc := advanceIp_reg_of_ne (by decide)
  refine ⟨fun hroom => ?_, fun k hk hbefore hbad => ?_⟩
  · obtain ⟨t, ht, hcfg, hfault, hmem, hfsz, hsp, hfp', hacc', hregs⟩ := popState_ok (advanceIp 1 s) (by simpa using hsize)
      (by rw [hfp, returnCount_advanceIp, advanceIp_cfg]; omega)
    simp only [hfp, hacc, returnCount_advanceIp, advanceIp_cfg, advanceIp_fault, advanceIp_mem]
      at hcfg hfault hmem hfsz hsp hfp' hacc' hregs
    refine ⟨t, (exec_ret s).trans (runInstr_ok ht), hregs 0 _ rfl, hregs 1 _ rfl, hregs 2 _ rfl, hregs 3 _ rfl,
      hregs 4 _ rfl, hregs 5 _ rfl, hregs 6 _ rfl, hregs 7 _ rfl, hregs 8 _ rfl, ?_, hfp', hacc', hfsz, ⟨hcfg, hfault⟩,
      fun a => by rw [hmem]⟩
    rw [hsp, toNat_add_ofNat _ _ (by omega), Nat.add_assoc]
  · obtain ⟨t, ht, hcfg, -, hmem, hfp', hacc', hsp, hfsz, hpopped, hleft⟩ := popState_error (advanceIp 1 s) k
      (by simpa using hsize) (by rwa [returnCount_advanceIp])
      (fun j hj => by rw [hfp, advanceIp_cfg]; have := hbefore j hj; omega) (by rw [hfp, advanceIp_cfg]; omega)
    simp only [hfp, hacc, advanceIp_cfg, advanceIp_fsz, advanceIp_mem]
      at ht hcfg hmem hfp' hacc' hsp hfsz hpopped
    have hvalue : ∀ r, (advanceIp 1 s).reg r = operandValue .ret s r := advanceIp_instrLength_reg .ret s
    refine ⟨_, (exec_ret s).trans (runInstr_error ht), rfl, ?_, ?_, fun a => ?_, ?_, ?_, ?_, ?_, ?_⟩
    · simpa using hfp'
    · simpa using hacc'
    · rw [raise_mem, hmem]
    · simpa using hcfg
    · simpa using hsp
    · simpa using hfsz
    · simpa using hpopped
    · simpa [hvalue] using hleft

/-! ### A call and its return (section 3) -/

/-- A frame that does not wrap: its slots go down from `sp`. -/
theorem frameSlot_of_le {s : State} {k : Nat} (h : 2 * k ≤ (s.reg .sp).toNat) :
    frameSlot s k = (s.reg .sp).toNat - 2 * k := by
  have := (s.reg .sp).isLt
  rw [frameSlot, BitVec.toNat_sub, BitVec.toNat_ofNat]
  omega

/-- The reloaded counter after the 22 bytes of frame and count and the `2n` of arguments are popped. -/
theorem fsz_after_return (c adj count : Word) :
    c + 20 - adj - BitVec.ofNat 16 (20 + 2 * count.toNat) = c - adj - 2 * count := by
  have hpops : BitVec.ofNat 16 (20 + 2 * count.toNat) = 20 + 2 * count := by
    rw [BitVec.ofNat_add, BitVec.ofNat_mul, BitVec.ofNat_toNat, BitVec.setWidth_eq]; rfl
  rw [hpops]
  ring

/-- Settles O37: the frame the call made is the one the return unwinds: `fp` is still below it, its words are those pushed,
and the word above it is the argument count. -/
theorem callThenReturnRestoresTheCaller : Obligations.CallThenReturnRestoresTheCaller := by
  intro s t u i hwf hi hlow hlink hroom hexec hcfg hfp hkept hcount
  obtain ⟨hmin, hsize, -⟩ := (wf_iff s.cfg).1 hwf
  obtain ⟨target, hcall⟩ : ∃ target, exec i s = runInstr i (callTo target) s := by
    rcases hi with ⟨a, rfl⟩ | ⟨r, rfl⟩
    · exact ⟨_, exec_calLit a s⟩
    · exact ⟨_, exec_calReg r s⟩
  have hslot : ∀ k, k < 10 → frameSlot s k = (s.reg .sp).toNat - 2 * k := fun k hk => frameSlot_of_le (by omega)
  obtain ⟨t', ht', hmade⟩ := exec_call_ok hcall hwf (fun k hk => by rw [hslot k hk]; omega)
  obtain rfl : t' = t := by rw [hexec] at ht'; cases ht'; rfl
  have hcfgu : u.cfg = s.cfg := hcfg.trans hmade.same.1
  have hfpu : u.reg .fp = s.reg .sp - 20 := by rw [hfp, hmade.regs]; rfl
  have hfpN : (u.reg .fp).toNat = (s.reg .sp).toNat - 20 := by
    rw [hfpu]; bv_omega
  have hword : ∀ k v b, k < 10 → (frameWords (advanceIp (instrLength i) s))[k]? = some v → b + 2 * k = (s.reg .sp).toNat →
      u.mem.word b = v := by
    intro k v b hk hv hb
    have hat : frameSlot s k = b := by rw [hslot k hk]; omega
    rw [← hmade.words k v hv, hat]
    exact word_congr (hkept b (by omega) (by omega)) (hkept (b + 1) (by omega) (by omega))
  have hreturn : returnCount u = (s.mem.word ((s.reg .sp).toNat + 2)).toNat := by
    rw [returnCount, hfpN, show (s.reg .sp).toNat - 20 + 22 = (s.reg .sp).toNat + 2 by omega, hcount]
  obtain ⟨w, hw, hip, h8, h7, h6, h5, h4, h3, h2, h1, hsp, hfpw, hacc, hfsz, ⟨-, hfault⟩, hbytes⟩ :=
    (retUnwindsTheFrame u (by rw [hcfgu]; exact hwf)).1 (by rw [hfpN, hreturn, hcfgu]; omega)
  have hframe : u.mem.word ((u.reg .fp).toNat + 2) = s.fsz + 20 := hword 9 _ _ (by decide) rfl (by omega)
  refine ⟨w, hw, ?_, ?_, ?_, ?_, hacc, ?_, hfault, hbytes⟩
  · simp only [List.forall_mem_cons, List.not_mem_nil, false_imp_iff, implies_true, and_true]
    exact ⟨h1.trans (hword 0 _ _ (by decide) rfl (by omega)), h2.trans (hword 1 _ _ (by decide) rfl (by omega)),
      h3.trans (hword 2 _ _ (by decide) rfl (by omega)), h4.trans (hword 3 _ _ (by decide) rfl (by omega)),
      h5.trans (hword 4 _ _ (by decide) rfl (by omega)), h6.trans (hword 5 _ _ (by decide) rfl (by omega)),
      h7.trans (hword 6 _ _ (by decide) rfl (by omega)), h8.trans (hword 7 _ _ (by decide) rfl (by omega))⟩
  · exact hip.trans (hword 8 _ _ (by decide) rfl (by omega))
  · rw [hfpw, hframe, hfpu, hlink]; ring
  · rw [hsp, hfpN, hreturn]; omega
  · rw [hfsz, hframe, hreturn, hcfgu, fsz_after_return]

end Sys2Proof.Machine
end

section
/-! Statements about all instructions at once: the registers and bytes an instruction may write, and the access at which it
raises (spec/10_state.md section 1, spec/20_memory.md section 10, spec/60_exceptions.md section 3). -/

namespace Sys2Proof.Machine

/-! ### Registers -/

/-- What an instruction may do to the registers, `FSZ` and the parameters. -/
def RegistersKept (i : Instr) (s t : State) : Prop :=
  (∀ q, q ∉ writtenRegs i → t.reg q = s.reg q) ∧ (usesStack i = false → t.fsz = s.fsz) ∧ t.cfg = s.cfg

theorem allows_registersKept (i : Instr) : Allows (RegistersKept i) (writtenRegs i) (usesStack i) true where
  refl _ := ⟨fun _ _ => rfl, fun _ => rfl, rfl⟩
  trans := fun _ _ _ ⟨hr, hz, hc⟩ ⟨hr', hz', hc'⟩ =>
    ⟨fun q hq => (hr' q hq).trans (hr q hq), fun h => (hz' h).trans (hz h), hc'.trans hc⟩
  reg s r v hr := ⟨fun q hq => by rw [setReg_reg, if_neg (by rintro rfl; exact hq hr)], fun _ => setReg_fsz s r v,
    setReg_cfg s r v⟩
  fsz hst s v := ⟨fun q _ => setFsz_reg s v q, fun h => absurd (hst.symm.trans h) (by decide), rfl⟩
  mem _ s a v _ := ⟨fun q _ => setMem_reg s _ q, fun _ => rfl, rfl⟩

theorem exec_registersKept {i : Instr} {s t : State} (h : exec i s = .next t) : RegistersKept i s t := by
  obtain ⟨u, hu, rfl | ⟨f, rfl⟩⟩ := exec_next_cases (allows_registersKept i) (fun _ h => h) (fun h => h) (fun _ => rfl) h
  · exact hu
  · simpa [RegistersKept] using hu

/-- The parameters are fixed while an instruction runs (spec/10_state.md R23). -/
theorem exec_cfg {i : Instr} {s t : State} (h : exec i s = .next t) : t.cfg = s.cfg := by
  obtain ⟨-, -, hcfg⟩ := exec_registersKept h
  exact hcfg

theorem raisedBy_ip (s : State) (i : Instr) (f : Fault) :
    (raisedBy i f s).reg .ip = s.reg .ip + BitVec.ofNat 16 (instrLength i) := by simp [raisedBy]

theorem raisedBy_mem (s : State) (i : Instr) (f : Fault) : (raisedBy i f s).mem = s.mem := by simp [raisedBy]

theorem raisedBy_fault (s : State) (i : Instr) (f : Fault) : (raisedBy i f s).fault =
    some { cause := f, instrAddr := s.reg .ip, opcode := some (opcodeOf s.cfg.opc i) } := rfl

/-- An instruction that is no transfer leaves `ip` past its own bytes, whether it raises or not (spec/43_jump.md R88). -/
theorem exec_ip_of_not_transfer {i : Instr} {s t : State} (hi : mayTransfer i = false) (h : exec i s = .next t) :
    t.reg .ip = s.reg .ip + BitVec.ofNat 16 (instrLength i) := by
  cases i with
  | movLitReg lit d =>
    have hd : .ip ≠ d := by rintro rfl; cases hi
    rw [exec_movLitReg] at h; cases h
    simp [hd, instrLength]
  | movRegReg src d =>
    have hd : .ip ≠ d := by rintro rfl; cases hi
    rw [exec_movRegReg] at h; cases h
    simp [hd, instrLength]
  | movRegMem src addr =>
    rw [exec_movRegMem] at h
    split_ifs at h <;> cases h
    · simp [instrLength]
    · exact raisedBy_ip s _ _
  | movMemReg addr d =>
    have hd : .ip ≠ d := by rintro rfl; cases hi
    rw [exec_movMemReg] at h
    split_ifs at h <;> cases h
    · simp [hd, instrLength]
    · exact raisedBy_ip s _ _
  | addRegReg p q => rw [exec_addRegReg] at h; cases h; simp [instrLength]
  | pshLit lit =>
    rw [exec_pshLit] at h
    split_ifs at h <;> cases h
    · simp [instrLength]
    · exact raisedBy_ip s _ _
  | pshReg r =>
    rw [exec_pshReg] at h
    split_ifs at h <;> cases h
    · simp [instrLength]
    · exact raisedBy_ip s _ _
  | pop r =>
    have hr : .ip ≠ r := by rintro rfl; cases hi
    rw [exec_pop] at h
    split_ifs at h <;> cases h
    · exact raisedBy_ip s _ _
    · simp [hr, instrLength]
  | unknownOpcode b =>
    cases hp : s.cfg.unknownOpcode with
    | nop => rw [exec_unknownOpcode_of_nop s b hp] at h; cases h; exact advanceIp_reg s 1 .ip
    | fault => rw [exec_unknownOpcode_of_fault s b hp] at h; cases h; exact raisedBy_ip s _ _
  | jmpNotEq val addr => cases hi
  | calLit addr => cases hi
  | calReg r => cases hi
  | ret => cases hi

/-- Settles O34: the relation every write of the instruction respects, and the address after it. -/
theorem instructionsWriteOnlyTheirRegisters : Obligations.InstructionsWriteOnlyTheirRegisters := by
  intro i s t h
  obtain ⟨hregs, hfsz, hcfg⟩ := exec_registersKept h
  exact ⟨hregs, hfsz, fun hi => exec_ip_of_not_transfer hi h, hcfg⟩

/-! ### Bytes -/

/-- An instruction that stores nothing leaves the memory as it is. -/
theorem exec_mem_of_not_store {i : Instr} {s t : State} (hi : mayStore i = false) (h : exec i s = .next t) :
    t.mem = s.mem := by
  have A : Allows (fun s t => t.mem = s.mem) (writtenRegs i) true false := by
    constructor <;> simp +contextual
  obtain ⟨u, hu, rfl | ⟨f, rfl⟩⟩ := exec_next_cases A (fun _ h => h) (fun _ => rfl) (fun hs => by rw [hi] at hs; cases hs) h
  · exact hu
  · exact hu

/-- A call changes no byte outside the slots of its frame, whether it ends normally or raises. -/
theorem callTo_frame (target : Word) (s : State) (a : Nat)
    (ha : ∀ k, k < 10 → a ≠ frameSlot s k ∧ a ≠ frameSlot s k + 1) :
    (∀ b t, callTo target s = .ok b t → t.mem.byte a = s.mem.byte a) ∧
      ∀ e t, callTo target s = .error e t → t.mem.byte a = s.mem.byte a := by
  have hpush := pushList_frame (frameWords s) s a ha
  have hcall : callTo target s = _ := op_bind _ _ s
  rw [pushState_eq] at hcall
  cases hlist : pushList (frameWords s) s with
  | ok _ u =>
    rw [hlist] at hpush hcall
    exact holds_of_ok hcall (P := fun t => t.mem.byte a = s.mem.byte a) hpush
  | error e u =>
    rw [hlist] at hpush hcall
    exact holds_of_error hcall (P := fun t => t.mem.byte a = s.mem.byte a) hpush

/-- A word access writes the byte at its address and the next. -/
theorem not_writes_word {addr a : Nat} (h : ¬ Access.writes { addr := addr, width := 2, kind := .write } a) :
    a ≠ addr ∧ a ≠ addr + 1 := by
  simp only [Access.writes, true_and, not_and] at h
  omega

theorem exec_call_byte {i : Instr} {target : Word} {s t : State} {a : Nat}
    (hcall : exec i s = runInstr i (callTo target) s) (ha : ∀ x ∈ callWrites s, ¬ x.writes a) (h : exec i s = .next t) :
    t.mem.byte a = s.mem.byte a := by
  have hslots : ∀ k, k < 10 → a ≠ frameSlot (advanceIp (instrLength i) s) k ∧
      a ≠ frameSlot (advanceIp (instrLength i) s) k + 1 := fun k hk => by
    rw [frameSlot_advanceIp]
    exact not_writes_word (ha _ (List.mem_map_of_mem (List.mem_range.2 hk)))
  obtain ⟨hok, herr⟩ := callTo_frame target (advanceIp (instrLength i) s) a hslots
  rw [advanceIp_mem] at hok herr
  rcases runInstr_cases i (callTo target) s with ⟨u, hu, hrun⟩ | ⟨f, u, hu, hrun⟩ <;>
    rw [hcall, hrun] at h <;> cases h
  · exact hok _ _ hu
  · exact herr f u hu

/-- Settles O35: an instruction that stores writes the word at its one address, or the words of its frame. -/
theorem instructionsWriteOnlyTheirBytes : Obligations.InstructionsWriteOnlyTheirBytes := by
  intro i s t a h ha
  by_cases hi : mayStore i = false
  · rw [exec_mem_of_not_store hi h]
  cases i with
  | movRegMem src addr =>
    obtain ⟨h0, h1⟩ := not_writes_word (ha _ (List.mem_singleton.2 rfl))
    rw [exec_movRegMem] at h
    split_ifs at h <;> cases h
    · simp [h0, h1]
    · rw [raisedBy_mem]
  | pshLit lit =>
    obtain ⟨h0, h1⟩ := not_writes_word (ha _ (List.mem_singleton.2 rfl))
    rw [exec_pshLit] at h
    split_ifs at h <;> cases h
    · simp [h0, h1]
    · rw [raisedBy_mem]
  | pshReg r =>
    obtain ⟨h0, h1⟩ := not_writes_word (ha _ (List.mem_singleton.2 rfl))
    rw [exec_pshReg] at h
    split_ifs at h <;> cases h
    · simp [h0, h1]
    · rw [raisedBy_mem]
  | calLit addr => exact exec_call_byte (exec_calLit addr s) ha h
  | calReg r => exact exec_call_byte (exec_calReg r s) ha h
  | movLitReg | movRegReg | movMemReg | addRegReg | jmpNotEq | pop | ret | unknownOpcode => exact absurd rfl hi

/-! ### The access that raises -/

theorem firstBad_range_none {size n : Nat} {f : Nat → Access} (h : firstBad size ((List.range n).map f) = none) (k : Nat)
    (hk : k < n) : (f k).addr + (f k).width - 1 < size := by
  have hfit := (firstBad_eq_none_iff _ _).1 h _ (List.mem_map_of_mem (List.mem_range.2 hk))
  simpa [Access.fits] using hfit

theorem firstBad_range_some {size n : Nat} {f : Nat → Access} {x : Access}
    (h : firstBad size ((List.range n).map f) = some x) :
    ∃ k, k < n ∧ x = f k ∧ (∀ j, j < k → (f j).addr + (f j).width - 1 < size) ∧
      size ≤ (f k).addr + (f k).width - 1 := by
  obtain ⟨hbad, k, hk, rfl, hbefore⟩ := List.find?_eq_some_iff_getElem.1 h
  simp only [List.length_map, List.length_range, List.getElem_map, List.getElem_range] at hk hbad hbefore
  refine ⟨k, hk, by simp, fun j hj => ?_, ?_⟩
  · simpa [Access.fits] using hbefore j hj
  · simpa [Access.fits] using hbad

/-- What the latch holds after an instruction with accesses `xs`: what it held when all fit, else the record of the first
that does not. -/
def latchAfter (i : Instr) (s : State) (xs : List Access) : Option FaultRecord :=
  (firstBad s.cfg.memSize xs).elim s.fault fun x =>
    some { cause := x.condition, instrAddr := s.reg .ip, opcode := some (opcodeOf s.cfg.opc i) }

/-- An instruction without data accesses, which answers `u`. -/
theorem fault_of_none {i : Instr} {s t u : State} (h : exec i s = .next u) (hu : u.fault = s.fault)
    (ht : exec i s = .next t) : t.fault = latchAfter i s [] := by
  rw [h] at ht
  cases ht
  exact hu

/-- An instruction with one access, which answers `u` where it fits and raises the access's condition where it does not. -/
theorem fault_of_single {i : Instr} {s t u : State} {x : Access} {f : Fault} (hx : x.condition = f)
    (h : exec i s = if x.addr + x.width - 1 < s.cfg.memSize then .next u else .next (raisedBy i f s))
    (hu : u.fault = s.fault) (ht : exec i s = .next t) : t.fault = latchAfter i s [x] := by
  rw [latchAfter, firstBad_cons, firstBad_nil]
  rw [h] at ht
  split_ifs at ht ⊢ <;> cases ht
  · exact hu
  · rw [raisedBy_fault, ← hx]; rfl

theorem fault_of_call {i : Instr} {target : Word} {s t : State} (hcall : exec i s = runInstr i (callTo target) s)
    (hwf : s.cfg.wf = true) (ht : exec i s = .next t) : t.fault = latchAfter i s (callWrites s) := by
  rw [latchAfter]
  cases hbad : firstBad s.cfg.memSize (callWrites s) with
  | none =>
    obtain ⟨u, hu, hmade⟩ := exec_call_ok hcall hwf (firstBad_range_none hbad)
    rw [ht] at hu
    cases hu
    exact hmade.same.2
  | some x =>
    obtain ⟨k, hk, rfl, hbefore, hout⟩ := firstBad_range_some hbad
    obtain ⟨u, hu, hfault, -⟩ := exec_call_error hcall hwf hk hbefore hout
    rw [ht] at hu
    cases hu
    exact hfault

/-- The pops of RET are its accesses, and one fits where the word it takes is at most at `MEM_SIZE - 2`. -/
theorem fault_of_ret {s t : State} (hwf : s.cfg.wf = true) (ht : exec .ret s = .next t) :
    t.fault = latchAfter .ret s (returnReads s) := by
  obtain ⟨hmin, -, -⟩ := (wf_iff s.cfg).1 hwf
  rw [latchAfter]
  cases hbad : firstBad s.cfg.memSize (returnReads s) with
  | none =>
    have hlast := firstBad_range_none hbad (10 + returnCount s) (by omega)
    have hroom : (s.reg .fp).toNat + 22 + 2 * returnCount s ≤ s.cfg.memSize - 2 := by simp only at hlast; omega
    obtain ⟨u, hu, -, -, -, -, -, -, -, -, -, -, -, -, -, ⟨-, hfault⟩, -⟩ := (retUnwindsTheFrame s hwf).1 hroom
    rw [ht] at hu
    cases hu
    exact hfault
  | some x =>
    obtain ⟨k, hk, rfl, hbefore, hout⟩ := firstBad_range_some hbad
    simp only at hbefore hout
    have hfit : ∀ j, j < k → (s.reg .fp).toNat + 2 * j + 2 ≤ s.cfg.memSize - 2 := fun j hj => by
      have := hbefore j hj
      omega
    have hempty : s.cfg.memSize - 2 < (s.reg .fp).toNat + 2 * k + 2 := by omega
    obtain ⟨u, hu, hfault, -⟩ := (retUnwindsTheFrame s hwf).2 k hk hfit hempty
    rw [ht] at hu
    cases hu
    rw [hfault, Nat.add_right_comm]
    rfl

/-- Where an instruction raises (spec/60_exceptions.md R128), the unknown opcode under the other policy left out. -/
theorem exec_fault {i : Instr} {s t : State} (hwf : s.cfg.wf = true)
    (hpolicy : ∀ b, i = .unknownOpcode b → s.cfg.unknownOpcode = .nop) (h : exec i s = .next t) :
    t.fault = latchAfter i s (dataAccesses s i) := by
  cases i with
  | movLitReg lit d => exact fault_of_none (exec_movLitReg s lit d) (by simp) h
  | movRegReg src d => exact fault_of_none (exec_movRegReg s src d) (by simp) h
  | movRegMem src addr => exact fault_of_single rfl (exec_movRegMem s src addr) (by simp) h
  | movMemReg addr d => exact fault_of_single rfl (exec_movMemReg s addr d) (by simp) h
  | addRegReg p q => exact fault_of_none (exec_addRegReg s p q) (by simp) h
  | jmpNotEq val addr => exact fault_of_none (exec_jmpNotEq s val addr) (by split_ifs <;> simp) h
  | pshLit lit => exact fault_of_single rfl (exec_pshLit s lit) (by simp) h
  | pshReg r => exact fault_of_single rfl (exec_pshReg s r) (by simp) h
  | pop r =>
    obtain ⟨hmin, -, -⟩ := (wf_iff s.cfg).1 hwf
    have hiff : s.cfg.memSize - 2 < (s.reg .sp).toNat + 2 ↔ ¬ (s.reg .sp).toNat + 2 + 2 - 1 < s.cfg.memSize := by omega
    have hpop := exec_pop s r
    simp only [hiff, ite_not] at hpop
    exact fault_of_single rfl hpop (by simp) h
  | calLit addr => exact fault_of_call (exec_calLit addr s) hwf h
  | calReg r => exact fault_of_call (exec_calReg r s) hwf h
  | ret => exact fault_of_ret hwf h
  | unknownOpcode b => exact fault_of_none (exec_unknownOpcode_of_nop s b (hpolicy b rfl)) (by simp) h

/-- Settles O33: `exec_fault`, the policy being the one the spec fixes. -/
theorem execRaisesExactlyAtTheFirstBadAccess : Obligations.ExecRaisesExactlyAtTheFirstBadAccess := by
  intro i s t hwf hpolicy h
  rw [exec_fault hwf (fun _ _ => hpolicy) h, latchAfter]
  cases firstBad s.cfg.memSize (dataAccesses s i) <;> rfl

end Sys2Proof.Machine
end

section
/-! The host (spec/80_host_interface.md): each request's equation, what the requests leave as it was, and the reset
(spec/70_reset_and_hazards.md section 1). -/

namespace Sys2Proof.Machine

/-! ### The equation of each request -/

/-- An operation that raises is answered with its condition, and has no effect (R169). -/
theorem answerOp_of_error {α : Type} (answer : α → HostAnswer) {op : Op α} {s t : State} {f : Fault}
    (h : op s = .error f t) : answerOp answer op s = (.condition f, s) := by
  rw [answerOp, h]

section
variable (s : State) (a v : Nat)

theorem serve_readByte : serve (.readByte a) s =
    (if a < s.cfg.memSize then .byte (s.mem.byte a) else .condition (.outOfBounds a 1 .read), s) := by
  split_ifs with h
  · exact serve_readByte_of_lt h
  · exact answerOp_of_error _ ((memRead8_eq a s).trans (if_neg h))

theorem serve_readWord : serve (.readWord a) s =
    (if a + 1 < s.cfg.memSize then .word (s.mem.word a) else .condition (.outOfBounds a 2 .read), s) := by
  split_ifs with h
  · exact serve_readWord_of_lt h
  · exact answerOp_of_error _ ((memRead16_eq a s).trans (if_neg h))

theorem serve_writeByte : serve (.writeByte a v) s =
    if a < s.cfg.memSize then (.done, s.setMem (s.mem.setByte a (BitVec.ofNat 8 v)))
      else (.condition (.outOfBounds a 1 .write), s) := by
  split_ifs with h
  · exact serve_writeByte_of_lt h v
  · exact answerOp_of_error _ ((memWrite8_eq a _ s).trans (if_neg h))

theorem serve_writeWord : serve (.writeWord a v) s =
    if a + 1 < s.cfg.memSize then (.done, s.setMem (s.mem.setWord a (BitVec.ofNat 16 v)))
      else (.condition (.outOfBounds a 2 .write), s) := by
  split_ifs with h
  · exact serve_writeWord_of_lt h v
  · exact answerOp_of_error _ ((memWrite16_eq a _ s).trans (if_neg h))

theorem serve_reset : serve .reset s = (.done, State.afterReset s.cfg s.mem) := rfl
theorem serve_getReg (r : Reg) : serve (.getReg (.known r)) s = (.word (s.reg r), s) := rfl
theorem serve_getReg_invalid (name : String) :
    serve (.getReg (.invalid name)) s = (.condition (.unknownRegister name), s) := rfl
theorem serve_setReg (r : Reg) : serve (.setReg (.known r) v) s = (.done, s.setReg r (BitVec.ofNat 16 v)) := rfl
theorem serve_setReg_invalid (name : String) :
    serve (.setReg (.invalid name) v) s = (.condition (.unknownRegister name), s) := rfl
theorem serve_getFault : serve .getFault s = (.latch s.fault, s) := rfl

end

theorem serve_step {s t : State} (h : step s = .next t) : serve .step s = (.done, t) := by
  simp only [serve, h]

/-- Settles O42: the equations of the four memory requests out of range. -/
theorem failedHostAccessChangesNothing : Obligations.FailedHostAccessChangesNothing := by
  refine fun s a v => ⟨fun h => ⟨?_, ?_⟩, fun h => ⟨?_, ?_⟩⟩
  · rw [serve_readByte, if_neg (Nat.not_lt.2 h)]
  · rw [serve_writeByte, if_neg (Nat.not_lt.2 h)]
  · rw [serve_readWord, if_neg (Nat.not_lt.2 h)]
  · rw [serve_writeWord, if_neg (Nat.not_lt.2 h)]

/-! ### Register names (R164) -/

theorem hostName_regName (r : Reg) : hostName (regName r) = .known r := by cases r <;> rfl

theorem hostName_of_no_register {name : String} (h : ∀ r, regName r ≠ name) : hostName name = .invalid name := by
  have hnone : (allRegs.find? fun r => regName r == name) = none := by simp [h]
  rw [hostName, hnone]

/-- Settles O40: the names, and the equations of the two register requests. -/
theorem hostRegisterAccessRoundTrips : Obligations.HostRegisterAccessRoundTrips := by
  refine ⟨hostName_regName, fun name h => hostName_of_no_register h, fun s r v => ?_, serve_getReg, fun s name v =>
    ⟨serve_getReg_invalid s name, serve_setReg_invalid s v name⟩⟩
  have hread : (s.setReg r (BitVec.ofNat 16 v)).reg r = BitVec.ofNat 16 v := by rw [setReg_reg, if_pos rfl]
  refine ⟨s.setReg r (BitVec.ofNat 16 v), BitVec.ofNat 16 v, serve_setReg s v r, ?_, BitVec.toNat_ofNat v 16, fun q hq => ?_,
    setReg_fsz s r _, setReg_sameCfgAndFault s r _, setReg_sameBytes s r _⟩
  · rw [serve_getReg, hread]
  · rw [setReg_reg, if_neg hq]

/-! ### What the requests leave -/

/-- The memory is in canonical form and inside `MEM_SIZE`. -/
def State.memOk (s : State) : Prop := s.mem.wf = true ∧ s.mem.within s.cfg.memSize = true

/-- What every request but a step and a reset keeps. -/
structure HostKept (s t : State) : Prop where
  cfg : t.cfg = s.cfg
  fault : t.fault = s.fault
  fsz : t.fsz = s.fsz
  memOk : s.memOk → t.memOk

theorem HostKept.refl (s : State) : HostKept s s := ⟨rfl, rfl, rfl, id⟩

theorem hostKept_setMem {s : State} {m : Memory} (h : s.memOk → m.wf = true ∧ m.within s.cfg.memSize = true) :
    HostKept s (s.setMem m) := ⟨rfl, rfl, rfl, h⟩

theorem serve_hostKept {q : HostRequest} (hstep : q ≠ .step) (hreset : q ≠ .reset) (s : State) :
    HostKept s (serve q s).2 := by
  cases q with
  | reset => exact absurd rfl hreset
  | step => exact absurd rfl hstep
  | getReg name => cases name <;> exact HostKept.refl s
  | setReg name v =>
    cases name with
    | known r =>
      rw [serve_setReg]
      exact ⟨setReg_cfg s r _, setReg_fault s r _, setReg_fsz s r _, by simp [State.memOk]⟩
    | invalid name => exact HostKept.refl s
  | readByte a => rw [serve_readByte]; exact HostKept.refl s
  | readWord a => rw [serve_readWord]; exact HostKept.refl s
  | writeByte a v =>
    rw [serve_writeByte]
    split_ifs with ha
    · exact hostKept_setMem fun ⟨hwf, hin⟩ => ⟨wf_setByte _ _ _ hwf, within_setByte _ _ _ _ hin ha⟩
    · exact HostKept.refl s
  | writeWord a v =>
    rw [serve_writeWord]
    split_ifs with ha
    · exact hostKept_setMem fun ⟨hwf, hin⟩ => ⟨wf_setWord _ _ _ hwf, within_setWord _ _ _ _ hin ha⟩
    · exact HostKept.refl s
  | getFault => exact HostKept.refl s

/-- A step keeps the parameters (spec/10_state.md R23). -/
theorem step_cfg {s t : State} (h : step s = .next t) : t.cfg = s.cfg := by
  rcases step_cases s with ⟨-, hs⟩ | ⟨-, x, -, hs⟩ | ⟨-, -, hs⟩ <;> rw [hs] at h
  · cases h; rfl
  · cases h; simp [raisedAt]
  · exact exec_cfg h

theorem serve_cfg (q : HostRequest) (s : State) : (serve q s).2.cfg = s.cfg := by
  by_cases hstep : q = .step
  · obtain ⟨t, ht⟩ := everyStepAnswersANextState s
    rw [hstep, serve_step ht]
    exact step_cfg ht
  by_cases hreset : q = .reset
  · rw [hreset]; rfl
  · exact (serve_hostKept hstep hreset s).cfg

/-- Settles O44: no request changes a parameter, by induction over the session. -/
theorem parametersNeverChange : Obligations.ParametersNeverChange := by
  intro qs
  induction qs with
  | nil => exact fun s => rfl
  | cons q rest ih => exact fun s => (ih (serve q s).2).trans (serve_cfg q s)

/-- Settles O12: a halted machine does not step, so a step request keeps the record as every other but the reset does; the
reading requests do not look at the latch. -/
theorem haltedMachineStaysHaltedUntilReset : Obligations.HaltedMachineStaysHaltedUntilReset := by
  intro s r hr
  have hstep : step s = .next s := step_of_fault (by rw [hr]; exact Option.some_ne_none r)
  refine ⟨hstep, fun q hq => ?_, rfl, fun name => ?_, fun a => ?_, fun a => ?_, ?_⟩
  · by_cases hs : q = .step
    · rw [hs, serve_step hstep]; exact hr
    · exact (serve_hostKept hs hq s).fault.trans hr
  · cases name with
    | known q => rw [serve_getReg, serve_getReg, setFault_reg]
    | invalid name => rfl
  · rw [serve_readByte, serve_readByte, setFault_cfg, setFault_mem]
  · rw [serve_readWord, serve_readWord, setFault_cfg, setFault_mem]
  · rw [serve_getFault, hr]

/-- The answer and the registers after a request but a step do not depend on `FSZ`. -/
theorem serve_setFsz {q : HostRequest} (hstep : q ≠ .step) (s : State) (v : Word) :
    (serve q (s.setFsz v)).1 = (serve q s).1 ∧ ∀ r, (serve q (s.setFsz v)).2.reg r = (serve q s).2.reg r := by
  cases q with
  | reset => exact ⟨rfl, fun r => rfl⟩
  | step => exact absurd rfl hstep
  | getReg name =>
    cases name with
    | known q => simp only [serve_getReg, setFsz_reg, implies_true, and_self]
    | invalid name => exact ⟨rfl, setFsz_reg s v⟩
  | setReg name w =>
    cases name with
    | known q => simp only [serve_setReg, setReg_reg, setFsz_reg, implies_true, and_self]
    | invalid name => exact ⟨rfl, setFsz_reg s v⟩
  | readByte a =>
    rw [serve_readByte, serve_readByte, setFsz_cfg, setFsz_mem]
    exact ⟨rfl, setFsz_reg s v⟩
  | readWord a =>
    rw [serve_readWord, serve_readWord, setFsz_cfg, setFsz_mem]
    exact ⟨rfl, setFsz_reg s v⟩
  | writeByte a w =>
    rw [serve_writeByte, serve_writeByte, setFsz_cfg, setFsz_mem]
    split_ifs <;> simp
  | writeWord a w =>
    rw [serve_writeWord, serve_writeWord, setFsz_cfg, setFsz_mem]
    split_ifs <;> simp
  | getFault => exact ⟨rfl, setFsz_reg s v⟩

/-- Settles O43: what the host sees does not depend on the counter, and what it does not step or reset it keeps. -/
theorem hostCannotReachTheFrameCounter : Obligations.HostCannotReachTheFrameCounter := by
  intro q s v hstep
  obtain ⟨hanswer, hregs⟩ := serve_setFsz hstep s v
  exact ⟨hanswer, fun hreset => (serve_hostKept hstep hreset s).fsz, hregs⟩

/-! ### Reset and construction -/

/-- The state after reset, over any parameters in their domain (spec/10_state.md R24). -/
theorem afterReset_values {c : Config} (hwf : c.wf = true) (m : Memory) :
    ((State.afterReset c m).reg .sp).toNat = c.memSize - 2 ∧ ((State.afterReset c m).reg .fp).toNat = c.memSize - 2 ∧
      ∀ q, q ≠ .sp → q ≠ .fp → (State.afterReset c m).reg q = 0 := by
  obtain ⟨-, hsize, -⟩ := (wf_iff c).1 hwf
  have htop : (BitVec.ofNat 16 (c.memSize - 2)).toNat = c.memSize - 2 := by
    rw [BitVec.toNat_ofNat]; omega
  refine ⟨htop, htop, fun q hsp hfp => ?_⟩
  cases q
  case sp => exact absurd rfl hsp
  case fp => exact absurd rfl hfp
  all_goals rfl

/-- Settles O39: a reset is the state after reset over the memory as it is. -/
theorem resetRestoresAllButMemory : Obligations.ResetRestoresAllButMemory := fun s hwf =>
  ⟨State.afterReset s.cfg s.mem, serve_reset s, fun _ => rfl, rfl, rfl, rfl, afterReset_values hwf s.mem⟩

theorem construct_of_wf {c : Config} (hwf : c.wf = true) : construct c = .next (State.afterReset c { cells := [] }) := by
  obtain ⟨hmin, hmax, hinj⟩ := (wf_iff c).1 hwf
  rw [construct, if_neg (by omega), if_pos hinj]

/-- Settles O38: construction is the state after reset over a memory without cells; outside the domain the first check that
fails names the refusal. -/
theorem constructionGivesTheResetState : Obligations.ConstructionGivesTheResetState := by
  refine fun c => ⟨fun hwf => ?_, fun hsize => ?_, fun hmin hmax hinj => ?_⟩
  · exact ⟨_, construct_of_wf hwf, rfl, fun _ => rfl, rfl, rfl, afterReset_values hwf _⟩
  · rw [construct, if_pos hsize]
  · rw [construct, if_neg (by omega), if_neg (by rw [hinj]; decide)]

end Sys2Proof.Machine
end

section
/-! The end of a run (spec/70_reset_and_hazards.md R156): a run is followed step request by step request to the first state
that ends it. -/

namespace Sys2Proof.Machine

/-- The end of a run that reaches its last state after `taken` steps: a fault is looked at before the convention. -/
def endIn (rule : EndRule) (taken : Nat) (s : State) : RunEnd :=
  if s.fault ≠ none then .halted s else if rule.met taken s then .success s else .stopped s

theorem endIn_of_fault {rule : EndRule} {taken : Nat} {s : State} (h : s.fault ≠ none) : endIn rule taken s = .halted s :=
  if_pos h

theorem endIn_of_not_fault {rule : EndRule} {taken : Nat} {s : State} (h : s.fault = none) :
    endIn rule taken s = if rule.met taken s then .success s else .stopped s := if_neg (by simp [h])

/-- A run, begun after `taken` steps, ends after `j` more in the first state that has halted or meets the convention, or with
the budget. -/
theorem runFrom_ends (rule : EndRule) (budget taken : Nat) (s : State) :
    ∃ j, j ≤ budget ∧
      (∀ i, i < j → (stepMany i s).fault = none ∧ rule.met (taken + i) (stepMany i s) = false) ∧
      runFrom rule budget taken s = endIn rule (taken + j) (stepMany j s) ∧
      ((stepMany j s).fault = none → rule.met (taken + j) (stepMany j s) = false → j = budget) := by
  induction budget generalizing taken s with
  | zero =>
    refine ⟨0, le_rfl, fun i hi => absurd hi (Nat.not_lt_zero i), ?_, fun _ _ => rfl⟩
    by_cases hf : s.fault = none
    · cases hm : rule.met taken s with
      | true => rw [runFrom_of_met hf hm]; simp [endIn, hf, hm]
      | false => rw [runFrom_zero hf hm]; simp [endIn, hf, hm]
    · rw [runFrom_of_halted hf]; exact (endIn_of_fault hf).symm
  | succ n ih =>
    by_cases hf : s.fault = none
    case neg =>
      exact ⟨0, Nat.zero_le _, fun i hi => absurd hi (Nat.not_lt_zero i),
        (runFrom_of_halted hf).trans (endIn_of_fault hf).symm, fun h => absurd h hf⟩
    cases hm : rule.met taken s with
    | true =>
      refine ⟨0, Nat.zero_le _, fun i hi => absurd hi (Nat.not_lt_zero i), ?_, fun _ h => ?_⟩
      · rw [runFrom_of_met hf hm]; simp [endIn, hf, hm]
      · exact absurd (hm.symm.trans h) (by decide)
    | false =>
      obtain ⟨j, hj, hbefore, hend, hlast⟩ := ih (taken + 1) (serve .step s).2
      simp only [Nat.add_assoc, Nat.add_comm 1] at hbefore hend hlast
      refine ⟨j + 1, Nat.succ_le_succ hj, fun i hi => ?_, ?_, fun h h' => congrArg (· + 1) (hlast h h')⟩
      · cases i with
        | zero => exact ⟨hf, hm⟩
        | succ i => exact hbefore i (Nat.lt_of_succ_lt_succ hi)
      · rw [runFrom_succ hf hm]; exact hend

/-- Settles O49: a run begins after no steps. -/
theorem runEndsAtTheFirstFaultOrMetRule : Obligations.RunEndsAtTheFirstFaultOrMetRule := by
  intro rule budget s
  obtain ⟨j, hj, hbefore, hend, hlast⟩ := runFrom_ends rule budget 0 s
  simp only [Nat.zero_add] at hbefore hend hlast
  refine ⟨⟨j, hj, hbefore, hend, hlast⟩, fun t ht => ?_⟩
  rw [run, hend] at ht
  by_cases hf : (stepMany j s).fault = none
  · rw [endIn_of_not_fault hf] at ht
    split_ifs at ht
    cases ht
    exact hf
  · rw [endIn_of_fault hf] at ht
    cases ht

/-- Under "after exactly k steps", `m` of them still to take and the budget for them: the state after those, a fault on the
way being the state of the rest. -/
theorem runFrom_afterSteps (m budget taken : Nat) (s : State) (h : m ≤ budget) :
    runFrom (.afterSteps (taken + m)) budget taken s =
      if (stepMany m s).fault = none then .success (stepMany m s) else .halted (stepMany m s) := by
  induction m generalizing budget taken s with
  | zero =>
    rw [stepMany_zero]
    split_ifs with hf
    · exact runFrom_of_met hf (by simp)
    · exact runFrom_of_halted hf
  | succ m ih =>
    by_cases hf : s.fault = none
    case neg => rw [stepMany_of_halted _ s hf, if_neg hf, runFrom_of_halted hf]
    obtain ⟨b, rfl⟩ : ∃ b, budget = b + 1 := ⟨budget - 1, by omega⟩
    have hrest := ih b (taken + 1) (serve .step s).2 (by omega)
    rw [Nat.add_assoc, Nat.add_comm 1] at hrest
    rw [runFrom_succ hf (by simp), stepMany_succ, hrest]

/-- Settles O50: all `k` steps are still to take. -/
theorem runOfExactlyKSteps : Obligations.RunOfExactlyKSteps := by
  intro k budget s h
  have hrun := runFrom_afterSteps k budget 0 s h
  rwa [Nat.zero_add] at hrun

end Sys2Proof.Machine
end

section
/-! The invariant of the machine: parameters in their domain, memory in canonical form and inside `MEM_SIZE`, and a latched
record that a step can make. Every step and every request keeps it. -/

namespace Sys2Proof.Machine

/-! ### The invariant and its parts -/

theorem inv_iff (s : State) :
    s.inv = true ↔ s.cfg.wf = true ∧ s.memOk ∧ ∀ r, s.fault = some r → r.legit s.cfg = true := by
  cases h : s.fault <;> simp [State.inv, State.memOk, h, and_assoc]

section
variable {c : Config} {addr n t : Nat} {a : Word} {op : Option Byte} {b : Byte}

/-- A read that does not fit, of a byte or a word; the opcode is unknown where the read is that of the opcode byte. -/
theorem legit_read (hbad : c.memSize ≤ addr + n - 1) (haddr : addr < 65536) (hn : n = 1 ∨ n = 2)
    (hop : op = none → n = 1 ∧ addr = a.toNat) :
    FaultRecord.legit c { cause := .outOfBounds addr n .read, instrAddr := a, opcode := op } = true := by
  cases op with
  | some b => simp [FaultRecord.legit, hbad, haddr, hn]
  | none =>
    obtain ⟨rfl, rfl⟩ := hop rfl
    simp [FaultRecord.legit, haddr]
    simpa using hbad

/-- A word write that does not fit, by an instruction that writes. -/
theorem legit_write (hbad : c.memSize ≤ addr + 1) (haddr : addr < 65536) (hb : b ∈ writerOpcodes c.opc) :
    FaultRecord.legit c { cause := .outOfBounds addr 2 .write, instrAddr := a, opcode := some b } = true := by
  simp [FaultRecord.legit, hbad, haddr, hb]

/-- A pop above the last word, by an instruction that pops. -/
theorem legit_underflow (hbad : c.memSize - 2 < t) (hmin : 2 ≤ t) (hmax : t ≤ 65537) (hb : b ∈ popperOpcodes c.opc) :
    FaultRecord.legit c { cause := .stackUnderflow t, instrAddr := a, opcode := some b } = true := by
  simp [FaultRecord.legit, hbad, hmin, hmax, hb]

theorem legit_unknownOpcode (hp : c.unknownOpcode = .fault) (hb : c.opc.knows b = false) :
    FaultRecord.legit c { cause := .unknownOpcode b, instrAddr := a, opcode := some b } = true := by
  simp [FaultRecord.legit, hp, hb]

end

/-! ### The record of a fetch -/

/-- The access is a read of a byte or a word at an address of 16 bits. -/
def IsFetch (x : Access) : Prop := x.kind = .read ∧ x.addr < 65536 ∧ (x.width = 1 ∨ x.width = 2)

theorem isFetch_of_mem {a : Word} {i : Instr} : ∀ x ∈ fetchAccesses a i, IsFetch x := by
  have h1 : ∀ k, IsFetch (fetchAt a k 1) := fun k => ⟨rfl, BitVec.isLt _, .inl rfl⟩
  have h2 : ∀ k, IsFetch (fetchAt a k 2) := fun k => ⟨rfl, BitVec.isLt _, .inr rfl⟩
  cases i <;>
    simp only [fetchAccesses, List.forall_mem_cons, h1, h2, List.not_mem_nil, false_imp_iff, implies_true, and_self]

theorem firstBad_some {size : Nat} {xs : List Access} {x : Access} (h : firstBad size xs = some x) :
    x ∈ xs ∧ size ≤ x.addr + x.width - 1 := by
  refine ⟨List.mem_of_find?_eq_some h, ?_⟩
  simpa [Access.fits] using List.find?_some h

theorem legit_of_bad_fetch {s : State} {x : Access}
    (h : firstBad s.cfg.memSize (fetchAccesses (s.reg .ip) (instrAt s)) = some x) :
    (recordAt s x.condition).legit s.cfg = true := by
  obtain ⟨hmem, hbad⟩ := firstBad_some h
  obtain ⟨hkind, haddr, hwidth⟩ := isFetch_of_mem x hmem
  have hcond : x.condition = .outOfBounds x.addr x.width .read := by rw [Access.condition, hkind]
  rw [recordAt, hcond]
  refine legit_read hbad haddr hwidth fun hop => ?_
  have hout : ¬ (s.reg .ip).toNat < s.cfg.memSize := by
    intro hin
    rw [if_pos hin] at hop
    cases hop
  have hfirst : (fetchAt (s.reg .ip) 0 1).addr = (s.reg .ip).toNat := by simp [fetchAt]
  rw [(instrAt_hasFormat s).fetches, firstBad_cons, hfirst] at h
  obtain rfl : fetchAt (s.reg .ip) 0 1 = x := Option.some.inj ((if_neg hout).symm.trans h)
  exact ⟨rfl, hfirst⟩

/-! ### The record of an effect -/

theorem legit_of_bad_call {s : State} {x : Access} {b : Byte} (hb : b ∈ writerOpcodes s.cfg.opc)
    (h : firstBad s.cfg.memSize (callWrites s) = some x) :
    FaultRecord.legit s.cfg { cause := x.condition, instrAddr := s.reg .ip, opcode := some b } = true := by
  obtain ⟨k, -, rfl, -, hbad⟩ := firstBad_range_some h
  exact legit_write hbad (BitVec.isLt _) hb

/-- The first pop of RET without a word is just above one that had a word, or is the first of all. -/
theorem legit_of_bad_return {s : State} {x : Access} (hwf : s.cfg.wf = true)
    (h : firstBad s.cfg.memSize (returnReads s) = some x) :
    FaultRecord.legit s.cfg { cause := x.condition, instrAddr := s.reg .ip, opcode := some s.cfg.opc.ret } = true := by
  obtain ⟨hmin, hmax, -⟩ := (wf_iff s.cfg).1 hwf
  obtain ⟨k, -, rfl, hbefore, hbad⟩ := firstBad_range_some h
  have hfp := (s.reg .fp).isLt
  simp only at hbefore hbad
  have hmaxt : (s.reg .fp).toNat + 2 + 2 * k ≤ 65537 := by
    cases k with
    | zero => omega
    | succ k => have := hbefore k (Nat.lt_succ_self k); omega
  exact legit_underflow (t := (s.reg .fp).toNat + 2 + 2 * k) (by omega) (by omega) hmaxt (by simp [popperOpcodes])

/-- The access at which an effect raises makes a record a step can make. -/
theorem legit_of_bad_access {i : Instr} {s : State} {x : Access} (hwf : s.cfg.wf = true)
    (h : firstBad s.cfg.memSize (dataAccesses s i) = some x) :
    FaultRecord.legit s.cfg
      { cause := x.condition, instrAddr := s.reg .ip, opcode := some (opcodeOf s.cfg.opc i) } = true := by
  obtain ⟨hmin, -, -⟩ := (wf_iff s.cfg).1 hwf
  obtain ⟨hmem, hbad⟩ := firstBad_some h
  cases i with
  | movRegMem src addr =>
    obtain rfl := List.mem_singleton.1 hmem
    exact legit_write hbad addr.isLt (by simp [writerOpcodes, opcodeOf])
  | movMemReg addr d =>
    obtain rfl := List.mem_singleton.1 hmem
    exact legit_read hbad addr.isLt (.inr rfl) (fun hop => by cases hop)
  | pshLit lit =>
    obtain rfl := List.mem_singleton.1 hmem
    exact legit_write hbad (s.reg .sp).isLt (by simp [writerOpcodes, opcodeOf])
  | pshReg r =>
    obtain rfl := List.mem_singleton.1 hmem
    exact legit_write hbad (s.reg .sp).isLt (by simp [writerOpcodes, opcodeOf])
  | pop r =>
    obtain rfl := List.mem_singleton.1 hmem
    have hsp := (s.reg .sp).isLt
    simp only at hbad
    exact legit_underflow (t := (s.reg .sp).toNat + 2) (by omega) (by omega) (by omega) (by simp [popperOpcodes, opcodeOf])
  | calLit addr => exact legit_of_bad_call (by simp [writerOpcodes, opcodeOf]) h
  | calReg r => exact legit_of_bad_call (by simp [writerOpcodes, opcodeOf]) h
  | ret => exact legit_of_bad_return hwf h
  | movLitReg | movRegReg | addRegReg | jmpNotEq | unknownOpcode => cases hmem

/-- A record that an instruction of the machine latches is one a step can make. -/
theorem legit_of_exec {i : Instr} {s t : State} (hwf : s.cfg.wf = true) (hi : i.wf s.cfg.opc = true)
    (hfault : s.fault = none) (h : exec i s = .next t) (r : FaultRecord) (hr : t.fault = some r) :
    r.legit s.cfg = true := by
  by_cases hraises : ∃ b, i = .unknownOpcode b ∧ s.cfg.unknownOpcode = .fault
  case pos =>
    obtain ⟨b, rfl, hpolicy⟩ := hraises
    rw [exec_unknownOpcode_of_fault s b hpolicy] at h
    cases h
    cases hr
    exact legit_unknownOpcode hpolicy (by simpa [Instr.wf] using hi)
  case neg =>
    have hpolicy : ∀ b, i = .unknownOpcode b → s.cfg.unknownOpcode = .nop := by
      intro b hb
      cases hp : s.cfg.unknownOpcode with
      | nop => rfl
      | fault => exact absurd ⟨b, hb, hp⟩ hraises
    rw [exec_fault hwf hpolicy h, latchAfter] at hr
    cases hbad : firstBad s.cfg.memSize (dataAccesses s i) with
    | none => rw [hbad, Option.elim_none, hfault] at hr; cases hr
    | some x =>
      rw [hbad, Option.elim_some] at hr
      cases hr
      exact legit_of_bad_access hwf hbad

/-! ### Every step keeps the invariant -/

theorem allows_memOk (L : List Reg) : Allows (fun s t => s.memOk → t.memOk) L true true := by
  constructor
  case refl => exact fun s hs => hs
  case trans => exact fun a b c hab hbc ha => hbc (hab ha)
  case reg => exact fun s r v _ hs => by simpa [State.memOk] using hs
  case fsz => exact fun _ s v hs => hs
  case mem => exact fun _ s a v ha ⟨hwf, hin⟩ => ⟨wf_setWord _ _ _ hwf, within_setWord _ _ _ _ hin ha⟩

/-- The memory stays in form under every write an instruction makes. -/
theorem exec_memOk {i : Instr} {s t : State} (hs : s.memOk) (h : exec i s = .next t) : t.memOk := by
  obtain ⟨u, hu, rfl | ⟨f, rfl⟩⟩ := exec_next_cases (allows_memOk _) (fun _ h => h) (fun _ => rfl) (fun _ => rfl) h
  · exact hu hs
  · exact hu hs

/-- Settles O47: a step changes nothing, latches the record of a fetch that does not fit, or runs an instruction of the
machine, whose writes keep the memory in form and whose record is that of its first access that does not fit. -/
theorem stepKeepsTheInvariant : Obligations.StepKeepsTheInvariant := by
  intro s t hinv hstep
  obtain ⟨hwf, hmem, -⟩ := (inv_iff s).1 hinv
  rw [inv_iff, step_cfg hstep]
  rcases step_cases s with ⟨-, h⟩ | ⟨-, x, hx, h⟩ | ⟨hfault, -, h⟩ <;> rw [h] at hstep
  · cases hstep
    exact (inv_iff s).1 hinv
  · cases hstep
    refine ⟨hwf, by simpa [raisedAt, State.memOk] using hmem, fun r hr => ?_⟩
    obtain rfl : recordAt s x.condition = r := Option.some.inj hr
    exact legit_of_bad_fetch hx
  · exact ⟨hwf, exec_memOk hmem hstep, legit_of_exec hwf (instrAt_hasFormat s).wf hfault hstep⟩

/-! ### Every request and every session keeps the invariant -/

theorem afterReset_inv {c : Config} {m : Memory} (hwf : c.wf = true) (hm : m.wf = true) (hin : m.within c.memSize = true) :
    (State.afterReset c m).inv = true :=
  (inv_iff _).2 ⟨hwf, ⟨hm, hin⟩, fun r hr => by cases hr⟩

/-- Settles O46: the parameters of the model are in their domain, and no byte is written. -/
theorem resetMeetsTheInvariant : Obligations.ResetMeetsTheInvariant :=
  afterReset_inv (by decide) (by decide) (by decide)

theorem serve_inv (q : HostRequest) {s : State} (hinv : s.inv = true) : (serve q s).2.inv = true := by
  obtain ⟨hwf, hmem, hlegit⟩ := (inv_iff s).1 hinv
  by_cases hstep : q = .step
  · obtain ⟨t, ht⟩ := everyStepAnswersANextState s
    rw [hstep, serve_step ht]
    exact stepKeepsTheInvariant s t hinv ht
  by_cases hreset : q = .reset
  · rw [hreset]
    exact afterReset_inv hwf hmem.1 hmem.2
  · obtain ⟨hcfg, hfault, -, hmem'⟩ := serve_hostKept hstep hreset s
    rw [inv_iff, hcfg, hfault]
    exact ⟨hwf, hmem' hmem, hlegit⟩

theorem construct_inv {c : Config} {t : State} (h : construct c = .next t) : t.inv = true := by
  rw [construct] at h
  split_ifs at h with hsize hinj
  cases h
  exact afterReset_inv ((wf_iff c).2 ⟨by omega, by omega, hinj⟩) rfl rfl

theorem serveAll_inv (qs : List HostRequest) (s : State) (hinv : s.inv = true) : (serveAll qs s).inv = true := by
  induction qs generalizing s with
  | nil => exact hinv
  | cons q rest ih => exact ih _ (serve_inv q hinv)

/-- Settles O48: each request keeps the invariant, and construction meets it. -/
theorem everySessionKeepsTheInvariant : Obligations.EverySessionKeepsTheInvariant :=
  ⟨serveAll_inv, fun _ t qs h => serveAll_inv qs t (construct_inv h)⟩

end Sys2Proof.Machine
end
